-- ==== Sys2Proof/Word.lean ====
section
/-! DEFINITION. The word types of SimHymn: the 8-bit word, the 5-bit address, and text. -/

namespace Sys2Proof

/-- An 8-bit word: a memory cell, the accumulator or an instruction (00_scope.md R8, R9). Bit 0 is the least
significant bit and bit 7 the sign. -/
abbrev Byte := BitVec 8

/-- An unsigned 5-bit address 0..31: the program counter and every operand field (00_scope.md R7, R9). -/
abbrev Addr := BitVec 5

/-- A text: the host's input values, the rendered transcript, the assembler's source. A list of characters, so that
the kernel evaluates it. -/
abbrev Text := List Char

end Sys2Proof
end

