-- ==== Sys2Proof/Syntax.lean ====
section
/-! DEFINITION. The instructions of SimHymn, one constructor per row of spec/opcode_table.json (30_encoding.md R75). -/

namespace Sys2Proof

/-- The eight instructions (R75). Each carries its 5-bit operand `a = w[4:0]` (R73). `halt` ignores its operand (R74,
R116) but keeps it, so that an instruction and its word determine each other (assumption log 12). -/
inductive Instr where
  /-- opcode 0 (R116) -/
  | halt (a : Addr)
  /-- opcode 1 (R131) -/
  | jump (a : Addr)
  /-- opcode 2 (R132) -/
  | jzer (a : Addr)
  /-- opcode 3 (R133) -/
  | jpos (a : Addr)
  /-- opcode 4 (R140) -/
  | load (a : Addr)
  /-- opcode 5 (R142) -/
  | stor (a : Addr)
  /-- opcode 6 (R151) -/
  | add (a : Addr)
  /-- opcode 7 (R152) -/
  | sub (a : Addr)
  deriving DecidableEq, Repr

/-- The operand field of an instruction (R73). -/
def Instr.operand : Instr → Addr
  | .halt a => a
  | .jump a => a
  | .jzer a => a
  | .jpos a => a
  | .load a => a
  | .stor a => a
  | .add a => a
  | .sub a => a

/-- The opcode number of an instruction (R75). -/
def Instr.opcode : Instr → Nat
  | .halt _ => 0
  | .jump _ => 1
  | .jzer _ => 2
  | .jpos _ => 3
  | .load _ => 4
  | .stor _ => 5
  | .add _ => 6
  | .sub _ => 7

end Sys2Proof
end

