-- ==== Sys2Proof/Decode.lean ====
section
/-! DEFINITION. The decoder and the encoder (30_encoding.md R70 to R77). Decoding a word is total: every byte is an
instruction (R77). The one rejection is of an empty byte list. -/

namespace Sys2Proof

/-- Why a byte list is rejected: it holds no word to decode. -/
inductive DecodeReject where
  | noWord
  deriving DecidableEq, Repr

/-- `op = w[7:5]` (R72). -/
def opcodeField (w : Byte) : BitVec 3 := w.extractLsb' 5 3

/-- `a = w[4:0]`, unsigned, never sign-extended (R73, 90_conflicts.md C1). -/
def operandField (w : Byte) : Addr := w.extractLsb' 0 5

/-- The opcode map (R75): every word is exactly one instruction (R77). -/
def decode (w : Byte) : Instr :=
  match (opcodeField w).toFin with
  | 0 => .halt (operandField w)
  | 1 => .jump (operandField w)
  | 2 => .jzer (operandField w)
  | 3 => .jpos (operandField w)
  | 4 => .load (operandField w)
  | 5 => .stor (operandField w)
  | 6 => .add (operandField w)
  | 7 => .sub (operandField w)

/-- Decode the first instruction of a byte list and give the rest: every instruction is one word (R71). -/
def decodeBytes : List Byte → Except DecodeReject (Instr × List Byte)
  | [] => .error .noWord
  | w :: rest => .ok (decode w, rest)

/-- Decode a whole byte list, word by word (R71). -/
def decodeAll : List Byte → List Instr
  | [] => []
  | w :: rest => decode w :: decodeAll rest

/-- The word of opcode `op` and operand `a`: `u8 = op·32 + a` (R76). -/
def packFields (op : BitVec 3) (a : Addr) : Byte := op ++ a

/-- The word of an instruction (R75, R76). -/
def encode : Instr → Byte
  | .halt a => packFields 0b000#3 a
  | .jump a => packFields 0b001#3 a
  | .jzer a => packFields 0b010#3 a
  | .jpos a => packFields 0b011#3 a
  | .load a => packFields 0b100#3 a
  | .stor a => packFields 0b101#3 a
  | .add a => packFields 0b110#3 a
  | .sub a => packFields 0b111#3 a

/-- The instruction of the first `nbits` bits of `w`, laid out in bytes, the first byte at the lowest address. An
instruction is its first byte (R71), and bits above `nbits` are 0. -/
def decodeTableWord (nbits w : Nat) : Option Instr :=
  match decodeBytes [BitVec.ofNat 8 (w % 2 ^ nbits)] with
  | .ok (i, _) => some i
  | .error _ => none

end Sys2Proof
end

