-- ==== Sys2Proof/Machine/Numbers.lean ====
section
/-! DEFINITION. The readings of a word and the arithmetic wrap (00_scope.md R9, R10, R12). -/

namespace Sys2Proof.Machine

/-- The unsigned reading `u8(w)`, 0..255 (R9). -/
def u8 (w : Byte) : Nat := w.toNat

/-- The signed reading `s8(w) = w[7:0] − 256·w[7]`, −128..127 (R9). -/
def s8 (w : Byte) : Int := (w.toNat : Int) - 256 * (if w.msb then 1 else 0)

/-- `trunc8(v) = ((v + 128) mod 256) − 128`, `mod` taking the non-negative remainder (R10). -/
def trunc8 (v : Int) : Int := (v + 128) % 256 - 128

/-- The 8-bit vector whose signed reading is `v`, for `v` in −128..127 (R9: an integer stored into a cell). -/
def cellOf (v : Int) : Byte := BitVec.ofInt 8 v

/-- Arithmetic shift right, `floor(v / 2^k)` (R12). -/
def shiftRightArith (v : Int) (k : Nat) : Int := v / (2 ^ k : Nat)

/-- "Masked to 3 bits": the value modulo 8 (R12). -/
def maskThree (v : Int) : Int := v % 8

end Sys2Proof.Machine
end

