-- ==== Sys2Proof/Config.lean ====
section
/-! DEFINITION. The parameters of SimHymn (00_scope.md R7): the values the spec fixes, and an opaque constant for each
value it leaves free. `JUMP_CHAIN_BOUND` is not here: it is the field `chainBound` of State (assumption log 1). -/

namespace Sys2Proof

/-- `MEM_WORDS`: the number of memory cells (R7). -/
def Config.memWords : Nat := 32

/-- `CODE_LIMIT`: a step at a pc of 30 or more halts (R7, R115). -/
def Config.codeLimit : Nat := 30

/-- `INPUT_PORT`: `load` of this address reads input (R7, R51). -/
def Config.inputPort : Addr := 30#5

/-- `OUTPUT_PORT`: `stor` to this address writes output (R7, R51). -/
def Config.outputPort : Addr := 31#5

/-- `RESET_PC` (R7, R63). -/
def Config.resetPc : Addr := 0#5

/-- `LINE_TERMINATOR`, fixed as LF by the spec (R7, 92_eei_decisions.md D11). -/
def Config.lineTerminator : Text := ['\n']

/-- `PROMPT_TEXT`, the text a `Prompt` event renders as: OPEN in the spec (R7, R44, D11), so a free value with no
body (assumption log 2). -/
opaque Config.promptText : Text

/-- Whether a character that is neither printable ASCII nor one of the six ASCII white space characters counts as
white space. The spec says "white space" and does not list it, so this is free (assumption log 7). -/
opaque Config.otherWhiteSpace : Char → Bool

/-- The text of an assembler message the spec does not quote, by the number of its kind: "The text of every other
message is free" (30_encoding.md R98), so a free value (assumption log 16). -/
opaque Config.freeMessage : Nat → Text

end Sys2Proof
end

