-- ==== Sys2Proof/Machine/State.lean ====
section
/-! DEFINITION. The state of SimHymn (10_state.md R20 to R34) as plain data, and the machine after reset. -/

namespace Sys2Proof.Machine

/-- The kinds of execution error (60_exceptions.md R170). -/
inductive ErrorKind where
  /-- code 1: a fetch outside 0..31; unreachable with the 5-bit pc (R177) -/
  | fetchOutOfRange
  /-- code 2: a data address outside 0..31; unreachable with the 5-bit operand (R178) -/
  | memoryOutOfRange
  /-- code 3: a taken jump beyond the chain bound (R174) -/
  | jumpChainExceeded
  /-- code 4: `load 30` and the host has no more input (R175) -/
  | inputExhausted
  /-- code 5: `load 30` and the input text does not parse (R176) -/
  | inputInvalid
  deriving DecidableEq, Repr

/-- The run status (R25). `fw` is absent only for `fetchOutOfRange`, which records "pc, no word" (R170, assumption
log 9). -/
inductive Status where
  | running
  | halted
  | faulted (kind : ErrorKind) (fpc : Addr) (fw : Option Byte)
  deriving DecidableEq, Repr

/-- A transcript event (R27). -/
inductive Event where
  | prompt
  | echo (t : Text)
  | out (v : Byte)
  deriving DecidableEq, Repr

/-- What the host answers to `ReadInput` once its queued values are used up (R43, R47): `Exhausted`, or nothing ever
(93_implementation_defined.md I6, I7). DESIGN CHOICE: a source that never runs out has no constructor (assumption log 4). -/
inductive SourceEnd where
  | exhausted
  | silent
  deriving DecidableEq, Repr

/-- The memory `M[0..31]` (20_memory.md R50): (address, byte) pairs, addresses strictly rising, no entry equal to what
an unlisted address reads as. -/
abbrev Memory := List Host.Cell

/-- What an unlisted cell reads as. Cells an image does not give are 0 (30_encoding.md R97; assumption log 3). -/
def Memory.unlisted : Byte := 0#8

/-- The canonical form of a memory: addresses in 0..31 and strictly rising, no entry equal to `Memory.unlisted`. -/
def Memory.wf : Memory → Bool
  | [] => true
  | c :: m => decide (c.1 < Config.memWords) && decide (c.2 ≠ Memory.unlisted) && m.all (fun d => decide (c.1 < d.1))
      && Memory.wf m

/-- The state: the core's own state (R20, and the counter of R28), then what the host holds and a step reads. -/
structure State where
  /-- `M` (R20, R21) -/
  mem : Memory
  /-- `acc` (R22) -/
  acc : Byte
  /-- `pc` (R24) -/
  pc : Addr
  /-- `Z` (R26) -/
  z : Bool
  /-- `P` (R26) -/
  p : Bool
  /-- `status` (R25) -/
  status : Status
  /-- `T`, oldest event first (R27) -/
  transcript : List Event
  /-- the jump-chain counter `k`; 0 between steps (R28) -/
  k : Nat
  /-- the host's input source: the values not yet consumed, the next one first (R29, R43). DESIGN CHOICE: the list is
  finite, which the spec does not say of `INPUT_SOURCE` (00_scope.md R7), so an endless source is no state; unsafe for a
  claim that a run ends because its input does (assumption log 4) -/
  inputs : List Text
  /-- the host's answer when `inputs` is empty (R43, R47; assumption log 4) -/
  inputEnd : SourceEnd
  /-- the parameter `JUMP_CHAIN_BOUND` (00_scope.md R7, D5); no step changes it (assumption log 1) -/
  chainBound : Nat
  deriving DecidableEq, Repr

/-- Why the machine cannot make a transition. An execution error of the spec is NOT one of these: it is a next state
whose status is `faulted` (assumption log 10). -/
inductive Fault where
  /-- Raised by `load 30` alone, when the host never answers `ReadInput`: "the core waits in `load 30` and no
  transition happens" (93_implementation_defined.md I6, 10_state.md R47). Safe: the model stops where the hardware waits. -/
  | waitingForInput
  deriving DecidableEq, Repr

/-- What is refused. -/
inductive Refusal where
  /-- An instruction without a meaning; no arm of `exec` answers it. Safe. -/
  | notModelled (mnemonic : String)
  /-- Raised by the reset transaction alone, for an image whose length is not 32: "An image of any other length is refused
  and no core is built" (R41). Safe: the spec refuses too. -/
  | badImage (length : Nat)
  deriving DecidableEq, Repr

/-- The machine right after reset (R33, 70_reset_and_hazards.md R200), with the all-zero image (assumption log 3), a
host that has no input (log 4) and a chain bound of 30 (log 1). -/
def State.reset : State where
  mem := []
  acc := 0#8
  pc := Config.resetPc
  z := true
  p := false
  status := .running
  transcript := []
  k := 0
  inputs := []
  inputEnd := .exhausted
  chainBound := 30

end Sys2Proof.Machine
end

