-- ==== Sys2Proof/Machine/Flags.lean ====
section
/-! DEFINITION. The flag setter (10_state.md R26). There is no carry, overflow, sign or negative flag. -/

namespace Sys2Proof.Machine

/-- The zero flag for an accumulator value: `s8(v) == 0` (R26). -/
def zeroFlag (v : Byte) : Bool := s8 v == 0

/-- The positive flag for an accumulator value: `s8(v) > 0` (R26). -/
def positiveFlag (v : Byte) : Bool := 0 < s8 v

/-- `SetFlags(v)` (R26). -/
def State.setFlags (v : Byte) (s : State) : State := { s with z := zeroFlag v, p := positiveFlag v }

end Sys2Proof.Machine
end

