-- ==== Sys2Proof/Machine/Operands.lean ====
section
/-! DEFINITION. The one addressing mode, direct (42_load_store.md R144). -/

namespace Sys2Proof.Machine

/-- `EA = zext_5(w[4:0])`: the operand field, zero-extended, as a memory key (R144). -/
def effectiveAddress (a : Addr) : Nat := a.toNat

/-- Whether an address carried as a number is one of 0..31. An address outside is an error, never reduced modulo 32
(20_memory.md R55). -/
def inRange (a : Nat) : Bool := a < Config.memWords

end Sys2Proof.Machine
end

