-- ==== Sys2Proof/Machine/Memory.lean ====
section
/-! DEFINITION. The memory as a canonical list of cells (20_memory.md R50, R52). -/

namespace Sys2Proof.Machine

/-- The content of a cell. -/
def Memory.read : Memory → Nat → Byte
  | [], _ => Memory.unlisted
  | c :: m, a => if a = c.1 then c.2 else Memory.read m a

/-- Put a cell before the first one with a higher address. -/
def Memory.place : Memory → Host.Cell → Memory
  | [], x => [x]
  | c :: m, x => if x.1 < c.1 then x :: c :: m else c :: Memory.place m x

/-- Write a cell, keeping the canonical form: the value an unlisted cell reads as leaves no entry. -/
def Memory.write (m : Memory) (a : Nat) (v : Byte) : Memory :=
  let others := m.filter fun c => c.1 != a
  if v = Memory.unlisted then others else Memory.place others (a, v)

/-- The memory that holds the words of an image from address `base` on (10_state.md R41). -/
def Memory.ofImage (base : Nat) : List Byte → Memory
  | [] => []
  | w :: ws =>
    if w = Memory.unlisted then Memory.ofImage (base + 1) ws else (base, w) :: Memory.ofImage (base + 1) ws

/-- `MemRead(a, 1)` (00_scope.md R11) for an address carried as a number; `none` outside 0..31 (R55). -/
def State.memRead (s : State) (a : Nat) : Option Byte :=
  if inRange a then some (Memory.read s.mem a) else none

/-- `MemWrite(a, 1, v)` (00_scope.md R11) for an address carried as a number; `none` outside 0..31 (R55). -/
def State.memWrite (s : State) (a : Nat) (v : Byte) : Option State :=
  if inRange a then some { s with mem := Memory.write s.mem a v } else none

end Sys2Proof.Machine
end

