-- ==== Sys2Proof/Machine/Text.lean ====
section
/-! DEFINITION. Text: white space, decimal literals, `ParseInput` (42_load_store.md R141) and decimal rendering
(10_state.md R44). The assembler's literals (30_encoding.md R92) use the same digits. -/

namespace Sys2Proof.Machine

/-- White space: space, tab, LF, VT, FF and CR. A printable ASCII character other than space is not; any other
character is left free (assumption log 7). -/
def isWhite (c : Char) : Bool :=
  if c.toNat = 32 ∨ 9 ≤ c.toNat ∧ c.toNat ≤ 13 then true
  else if 33 ≤ c.toNat ∧ c.toNat ≤ 126 then false
  else Config.otherWhiteSpace c

/-- Remove leading and trailing white space. -/
def trim (t : Text) : Text := ((t.dropWhile isWhite).reverse.dropWhile isWhite).reverse

/-- A decimal digit `0`–`9` (R92; assumption log 8). -/
def isDigit (c : Char) : Bool := 48 ≤ c.toNat && c.toNat ≤ 57

/-- The number a digit sequence spells in the given base, the most significant digit first. -/
def digitsValue (base : Nat) (ds : Text) : Nat := ds.foldl (fun n c => n * base + (c.toNat - 48)) 0

/-- One or more decimal digits. -/
def parseNatural (t : Text) : Option Nat :=
  if t ≠ [] ∧ t.all isDigit then some (digitsValue 10 t) else none

/-- An optional `-` followed by one or more decimal digits (R141). -/
def parseInteger : Text → Option Int
  | '-' :: ds => (parseNatural ds).map fun n : Nat => -(n : Int)
  | ds => (parseNatural ds).map fun n : Nat => (n : Int)

/-- `ParseInput(r)`: trim, read an integer, reduce it by `trunc8` (R141). `none` where the parse fails. -/
def parseInput (r : Text) : Option Byte := (parseInteger (trim r)).map fun v => cellOf (trunc8 v)

/-- The decimal digits of a natural number, without leading zeros. -/
def naturalText (n : Nat) : Text := Nat.toDigits 10 n

/-- Decimal text of an integer: a `-` where negative, no `+`, no leading zeros (R44). -/
def integerText (v : Int) : Text := if v < 0 then '-' :: naturalText v.natAbs else naturalText v.natAbs

/-- The pieces of a text between the characters that separate: one more piece than there are separators. -/
def splitAtEach (separates : Char → Bool) : Text → List Text
  | [] => [[]]
  | c :: t =>
    match splitAtEach separates t with
    | [] => [[]]
    | piece :: pieces => if separates c then [] :: piece :: pieces else (c :: piece) :: pieces

/-- Letter case is ignored by comparing texts after this (R91, R94). DESIGN CHOICE: the case of the ASCII letters alone
(assumption log 17). -/
def foldCase (t : Text) : Text := t.map Char.toLower

end Sys2Proof.Machine
end

