-- ==== Sys2Proof/Machine/Ops.lean ====
section
/-! DEFINITION. The operations the instructions share (00_scope.md R11): fetch, pc advance, halt, raising an execution
error, the taken jump, the transcript, the input port and the ALU.

The counter `k` (10_state.md R28) is above 0 only between two micro-steps of one jump chain: a taken jump adds 1 to it,
and every other outcome sets it to 0 (40_execution_cycle.md R121; assumption log 6). -/

namespace Sys2Proof.Machine

/-- The outcome of a micro-step. -/
abbrev Result := Host.Outcome State Fault Refusal

/-- `w <- MemRead(pc, 1)`, without a side effect at any address (40_execution_cycle.md R111). -/
def fetch (s : State) : Option Byte := s.memRead s.pc.toNat

/-- `Emit(e)`: append an event to the transcript (R11). -/
def State.emit (e : Event) (s : State) : State := { s with transcript := s.transcript ++ [e] }

/-- `pc <- pc + 1`, the end of a micro-step that was no taken jump (40_execution_cycle.md R118). -/
def State.advance (s : State) : State := { s with pc := s.pc + 1#5, k := 0 }

/-- `status <- Halted`; the pc stays (40_execution_cycle.md R113, R116). -/
def State.halt (s : State) : State := { s with status := .halted, k := 0 }

/-- `raise ExecError(kind, pc, w)` (60_exceptions.md R171): taking an execution error. It records the pc and the word
fetched there, advances nothing and enters no handler (R180). Nothing returns from it (R181). -/
def State.raise (kind : ErrorKind) (s : State) : State := { s with status := .faulted kind s.pc (fetch s), k := 0 }

/-- The code of an error kind (60_exceptions.md R170, 92_eei_decisions.md D6). -/
def errorCode : ErrorKind → Nat
  | .fetchOutOfRange => 1
  | .memoryOutOfRange => 2
  | .jumpChainExceeded => 3
  | .inputExhausted => 4
  | .inputInvalid => 5

/-- `TakeJump(a)` (41_control_transfer.md R130). -/
def takeJump (a : Addr) (s : State) : State :=
  if s.k = s.chainBound then s.raise .jumpChainExceeded else { s with pc := a, k := s.k + 1 }

/-- Fall through a conditional jump that is not taken, or take it (R132, R133). -/
def jumpIf (taken : Bool) (a : Addr) (s : State) : State := if taken then takeJump a s else s.advance

/-- `acc <- v` and `SetFlags(acc)` (10_state.md R26). -/
def State.writeAcc (v : Byte) (s : State) : State := State.setFlags v { s with acc := v }

/-- Read the cell at the operand's address and go on with its value; an address outside 0..31 raises (R55, 60_exceptions.md
R178). -/
def withCell (a : Addr) (s : State) (use : Byte → State) : State :=
  match s.memRead (effectiveAddress a) with
  | none => s.raise .memoryOutOfRange
  | some v => use v

/-- The ALU's addition: the exact signed sum, wrapped by `trunc8` (43_arithmetic.md R150, R151). -/
def aluAdd (x y : Byte) : Byte := cellOf (trunc8 (s8 x + s8 y))

/-- The ALU's subtraction (43_arithmetic.md R150, R152). -/
def aluSub (x y : Byte) : Byte := cellOf (trunc8 (s8 x - s8 y))

/-- `acc <- M[a]`, flags, pc advance: the common end of every `load` (42_load_store.md R140). -/
def loadCell (a : Addr) (s : State) : State := withCell a s fun v => (s.writeAcc v).advance

/-- What the input port gives (42_load_store.md R141). -/
inductive PortRead where
  /-- the value is stored; the load goes on from this state -/
  | ready (s : State)
  /-- an execution error, with the state to raise it in -/
  | failed (kind : ErrorKind) (s : State)
  /-- the host never answers (10_state.md R47) -/
  | waiting

/-- The input port read: `Prompt`, `ReadInput`, `ParseInput`, `Echo`, the write of the port's cell (R141,
92_eei_decisions.md D10). One value is consumed even when its parse fails. -/
def readInputPort (s : State) : PortRead :=
  match s.inputs with
  | [] =>
    match s.inputEnd with
    | .exhausted => .failed .inputExhausted (s.emit .prompt)
    | .silent => .waiting
  | r :: rest =>
    let asked := { s.emit .prompt with inputs := rest }
    match parseInput r with
    | none => .failed .inputInvalid asked
    | some v =>
      match (asked.emit (.echo r)).memWrite (effectiveAddress Config.inputPort) v with
      | none => .failed .memoryOutOfRange s
      | some stored => .ready stored

end Sys2Proof.Machine
end

