-- ==== Sys2Proof/Machine/Arith.lean ====
section
/-! DEFINITION. `add` and `sub` (43_arithmetic.md R150 to R154). They read any cell plainly, the port cells too. -/

namespace Sys2Proof.Machine

/-- ADD (R151). -/
def execAdd (a : Addr) (s : State) : Result :=
  .next (withCell a s fun m => (s.writeAcc (aluAdd s.acc m)).advance)

/-- SUB (R152). -/
def execSub (a : Addr) (s : State) : Result :=
  .next (withCell a s fun m => (s.writeAcc (aluSub s.acc m)).advance)

end Sys2Proof.Machine
end

