-- ==== Sys2Proof/Machine/Control.lean ====
section
/-! DEFINITION. `halt` (40_execution_cycle.md R116) and the jumps (41_control_transfer.md R130 to R136). -/

namespace Sys2Proof.Machine

/-- HALT (R116): the operand is ignored. -/
def execHalt (_ignored : Addr) (s : State) : Result := .next s.halt

/-- JUMP (R131). -/
def execJump (a : Addr) (s : State) : Result := .next (takeJump a s)

/-- JZER (R132): taken iff `Z`. -/
def execJzer (a : Addr) (s : State) : Result := .next (jumpIf s.z a s)

/-- JPOS (R133): taken iff `P`. -/
def execJpos (a : Addr) (s : State) : Result := .next (jumpIf s.p a s)

end Sys2Proof.Machine
end

