-- ==== Sys2Proof/Machine/LoadStore.lean ====
section
/-! DEFINITION. `load` and `stor`, with the two ports (42_load_store.md R140 to R144). -/

namespace Sys2Proof.Machine

/-- LOAD (R140): at the input port, the port read of R141 comes first. -/
def execLoad (a : Addr) (s : State) : Result :=
  if a = Config.inputPort then
    match readInputPort s with
    | .ready stored => .next (loadCell a stored)
    | .failed kind at_ => .next (at_.raise kind)
    | .waiting => .fault .waitingForInput
  else .next (loadCell a s)

/-- STOR (R142): at the output port, `Out(acc)` is emitted before the plain write (R143). Flags are kept. -/
def execStor (a : Addr) (s : State) : Result :=
  let told := if a = Config.outputPort then s.emit (.out s.acc) else s
  match told.memWrite (effectiveAddress a) s.acc with
  | none => .next (s.raise .memoryOutOfRange)
  | some stored => .next stored.advance

end Sys2Proof.Machine
end

