-- ==== Sys2Proof/Machine/Dispatch.lean ====
section
/-! DEFINITION. One arm per instruction (40_execution_cycle.md R114, the `case op of`). -/

namespace Sys2Proof.Machine

def exec (i : Instr) (s : State) : Host.Outcome State Fault Refusal :=
  match i with
  | .halt a => Sys2Proof.Machine.execHalt a s
  | .jump a => Sys2Proof.Machine.execJump a s
  | .jzer a => Sys2Proof.Machine.execJzer a s
  | .jpos a => Sys2Proof.Machine.execJpos a s
  | .load a => Sys2Proof.Machine.execLoad a s
  | .stor a => Sys2Proof.Machine.execStor a s
  | .add a => Sys2Proof.Machine.execAdd a s
  | .sub a => Sys2Proof.Machine.execSub a s

end Sys2Proof.Machine
end

