-- ==== Sys2Proof/Machine/Cycle.lean ====
section
/-! DEFINITION. The micro-step and the jump chain (40_execution_cycle.md R110 to R118). -/

namespace Sys2Proof.Machine

/-- One micro-step (R113): fetch, decode, the halt test, execute. The test at `pc ≥ 30` comes before any execution
(R115, R117), and a fetch outside 0..31 raises (60_exceptions.md R177). -/
def microStep (s : State) : Result :=
  match fetch s with
  | none => .next (s.raise .fetchOutOfRange)
  | some w => if Config.codeLimit ≤ s.pc.toNat then .next s.halt else exec (decode w) s

/-- Whether a state stands between two micro-steps of one chain: the last one took a jump (R113 `Taken`). -/
def State.midChain (s : State) : Bool := s.k != 0

/-- The loop of `Step()` (R114): micro-steps until one is no taken jump. The number is how many more taken jumps may be
followed; at `JUMP_CHAIN_BOUND` the next one raises (R130), so the loop always ends at an outcome that is no taken jump. -/
def chain : Nat → State → Result
  | 0, s => microStep s
  | n + 1, s =>
    match microStep s with
    | .next t => if t.midChain then chain n t else .next t
    | .fault r => .fault r
    | .refused r => .refused r

/-- Place an instruction word in the cell the next step fetches (assumption log 3). -/
def State.placeWord (s : State) (w : Byte) : State := { s with mem := Memory.write s.mem s.pc.toNat w }

end Sys2Proof.Machine
end

