-- ==== Sys2Proof/Machine/Step.lean ====
section
/-! DEFINITION. `Step()` (40_execution_cycle.md R114): a whole jump chain and the one effect it leads to
(90_conflicts.md C9). -/

namespace Sys2Proof.Machine

/-- `Step()` (R114): a stopped machine does not change (R119); a running one starts a chain with `k = 0` (R28). -/
def step (s : State) : Host.Outcome State Fault Refusal :=
  if s.status = .running then chain s.chainBound { s with k := 0 } else .next s

/-- `s` with the instruction of the first `nbits` bits of `w` in the cell at the pc. One word is the whole instruction
(30_encoding.md R71). -/
def State.withFetchWord (s : State) (nbits w : Nat) : State := s.placeWord (BitVec.ofNat 8 (w % 2 ^ nbits))

end Sys2Proof.Machine
end

