-- ==== Sys2Proof/WellFormed.lean ====
section
/-! DEFINITION. What is checked before it reaches the core. A term of Instr has a 5-bit operand by its type and every
byte decodes (30_encoding.md R77), so no instruction term is ill-formed. What can be ill-formed is what the host and the
assembler's source hand over: an image that is not 32 words, and an operand outside 0..31. -/

namespace Sys2Proof

/-- An instruction is well formed when its operand is an address of the map, 0..31 (R74, 20_memory.md R51). The 5-bit
field makes it so for every term (R55). -/
def Instr.wellFormed (i : Instr) : Bool := i.operand.toNat < Config.memWords

/-- A memory image is "exactly 32 signed 8-bit values" (10_state.md R41). -/
def imageWellFormed (image : List Byte) : Bool := image.length == Config.memWords

/-- A source operand that packs without changing the opcode bits: 0..31 (R76, R95, 70_reset_and_hazards.md R206). The
assembler does not require it; programs should keep it. -/
def operandWellFormed (v : Int) : Bool := 0 ≤ v && v < Config.memWords

end Sys2Proof
end

