-- ==== Sys2Proof/Machine/Assembler.lean ====
section
/-! DEFINITION. The two-pass assembler, the toolchain that makes the image (30_encoding.md R85 to R98). The core does not
depend on it. -/

namespace Sys2Proof.Machine

/-- The kinds of assembler error (R87 to R97). -/
inductive AsmErrorKind where
  /-- a label segment that is empty or holds white space (R87) -/
  | malformedLabel
  /-- a label defined again (R88) -/
  | duplicateLabel
  /-- a label still pending at the end of the source (R89) -/
  | danglingLabel
  /-- a line whose token count is neither one nor two (R90) -/
  | wrongTokenCount
  /-- a token that `Resolve` cannot read (R91, R94) -/
  | unrecognizedToken
  /-- the first of two tokens is no mnemonic (R94) -/
  | unknownMnemonic
  /-- more than 32 real instruction lines (R97) -/
  | tooManyLines
  deriving DecidableEq, Repr

/-- An error and the line it names (R98). -/
structure AsmError where
  line : Nat
  kind : AsmErrorKind
  deriving DecidableEq, Repr

/-- A label and the line it stands on. -/
structure PlacedLabel where
  name : Text
  line : Nat
  deriving DecidableEq, Repr

/-- A real instruction line: its line number and its code part. -/
structure RealLine where
  line : Nat
  code : Text
  deriving DecidableEq, Repr

/-- The label table: name to instruction index (R88, R98). -/
abbrev LabelTable := List (Text × Nat)

/-- What pass 1 has gathered so far (R88): the real lines in order, the label table, the pending queue, the errors. -/
structure FirstPass where
  lines : List RealLine
  labels : LabelTable
  pending : List PlacedLabel
  errors : List AsmError
  deriving DecidableEq, Repr

/-- The assembler's answer: an image or a report, "never both" (R98). -/
inductive AsmResult where
  | image (words : List Byte)
  | report (errors : List AsmError)
  deriving DecidableEq, Repr

/-- The result with the label table, exposed "for diagnostics/testing" (R98). -/
structure Assembly where
  result : AsmResult
  labels : LabelTable
  deriving DecidableEq, Repr

/-- The lines of a source text, split at LF (R85; assumption log 17). -/
def sourceLines (source : Text) : List Text := splitAtEach (· == '\n') source

/-- A line without its comment, trimmed (R85). -/
def stripLine (raw : Text) : Text := trim (raw.takeWhile (· != '#'))

/-- The label segments of a stripped line: every piece before the last `:`, trimmed (R86, 92_eei_decisions.md D28). -/
def labelSegments (stripped : Text) : List Text := (splitAtEach (· == ':') stripped).dropLast.map trim

/-- The code part of a stripped line: the piece after the last `:`; empty on a label-only line (R86). -/
def codePart (stripped : Text) : Text := trim ((splitAtEach (· == ':') stripped).getLast?.getD [])

/-- A segment is a label if it is non-empty and holds no white space (R87). -/
def validLabel (segment : Text) : Bool := segment ≠ [] && segment.all fun c => !isWhite c

/-- The index bound to a label (R88). Names are case-sensitive (D25). -/
def lookupLabel (table : LabelTable) (name : Text) : Option Nat :=
  (table.find? fun entry => entry.1 == name).map Prod.snd

/-- Bind labels to an instruction index in order; one that is already bound adds an error at its own line and keeps
the first binding (R88, D24; assumption log 14). -/
def bindLabels (index : Nat) : List PlacedLabel → LabelTable × List AsmError → LabelTable × List AsmError
  | [], done => done
  | l :: rest, (table, errors) =>
    match lookupLabel table l.name with
    | none => bindLabels index rest (table ++ [(l.name, index)], errors)
    | some _ => bindLabels index rest (table, errors ++ [{ line := l.line, kind := .duplicateLabel }])

/-- Pass 1 on one line (R85 to R88). -/
def firstPassLine (number : Nat) (raw : Text) (st : FirstPass) : FirstPass :=
  let stripped := stripLine raw
  if stripped = [] then st
  else
    let segments := labelSegments stripped
    let bad := (segments.filter fun g => !validLabel g).map fun _ => ({ line := number, kind := .malformedLabel } : AsmError)
    let good := (segments.filter validLabel).map fun g => ({ name := g, line := number } : PlacedLabel)
    let code := codePart stripped
    if code = [] then { st with pending := st.pending ++ good, errors := st.errors ++ bad }
    else
      let bound := bindLabels st.lines.length (st.pending ++ good) (st.labels, st.errors ++ bad)
      { lines := st.lines ++ [{ line := number, code := code }], labels := bound.1, pending := [], errors := bound.2 }

/-- Pass 1 over the lines from a line number on. -/
def firstPassFrom : Nat → List Text → FirstPass → FirstPass
  | _, [], st => st
  | number, raw :: rest, st => firstPassFrom (number + 1) rest (firstPassLine number raw st)

/-- Pass 1 (R88): lines are numbered from 1 (R85). -/
def firstPass (source : Text) : FirstPass :=
  firstPassFrom 1 (sourceLines source) { lines := [], labels := [], pending := [], errors := [] }

/-- Put an error behind those of its own line and before those of later lines. -/
def insertByLine (e : AsmError) : List AsmError → List AsmError
  | [] => [e]
  | d :: ds => if e.line < d.line then e :: d :: ds else d :: insertByLine e ds

/-- Errors in line order; errors of one line keep their order (R98). -/
def sortByLine (errors : List AsmError) : List AsmError := errors.foldl (fun sorted e => insertByLine e sorted) []

/-- The error of a program with more than 32 real lines, at the first line too many (R97; assumption log 15). -/
def overlongError (lines : List RealLine) : List AsmError :=
  match lines.drop Config.memWords with
  | [] => []
  | l :: _ => [{ line := l.line, kind := .tooManyLines }]

/-- One error for each label still pending at the end of the source (R89). -/
def danglingErrors (pending : List PlacedLabel) : List AsmError :=
  pending.map fun l => { line := l.line, kind := .danglingLabel }

/-- An 8-character binary literal (R92 item 1). -/
def binaryLiteral (tok : Text) : Option Int :=
  if tok.length = 8 ∧ tok.all (fun c => c == '0' || c == '1') then some (digitsValue 2 tok) else none

/-- `Resolve(tok)`: "the first successful interpretation wins" (R92). -/
def resolve (table : LabelTable) (tok : Text) : Option Int :=
  match binaryLiteral tok with
  | some v => some v
  | none =>
    match parseInteger tok with
    | some v => some v
    | none => (lookupLabel table tok).map fun index : Nat => (index : Int)

/-- The word of a single-token sentinel, letter case ignored (R96, D20). -/
def sentinelWord (tok : Text) : Option Byte :=
  let t := foldCase tok
  if t = "halt".toList then some 0x00#8
  else if t = "read".toList then some 0x9E#8
  else if t = "write".toList then some 0xBF#8
  else none

/-- The opcode of a mnemonic, letter case ignored; `store` is an alias of `stor` (R94). -/
def mnemonicOpcode (tok : Text) : Option Nat :=
  let t := foldCase tok
  if t = "jump".toList then some 1
  else if t = "jzer".toList then some 2
  else if t = "jpos".toList then some 3
  else if t = "load".toList then some 4
  else if t = "stor".toList ∨ t = "store".toList then some 5
  else if t = "add".toList then some 6
  else if t = "sub".toList then some 7
  else none

/-- `trunc8(opcode·32 + value)`, without a range check (R95). -/
def packWord (opcode : Nat) (value : Int) : Byte := cellOf (trunc8 (opcode * 32 + value))

/-- The tokens of a code part: its pieces between runs of white space (R90). -/
def tokensOf (code : Text) : List Text := (splitAtEach isWhite code).filter fun t => t ≠ []

/-- Encode one code part (R90, R91, R94): a word, or the one error of its line (D27). -/
def encodeCode (table : LabelTable) (code : Text) : Except AsmErrorKind Byte :=
  match tokensOf code with
  | [tok] =>
    match sentinelWord tok with
    | some w => .ok w
    | none =>
      match resolve table tok with
      | some v => .ok (cellOf (trunc8 v))
      | none => .error .unrecognizedToken
  | [mnemonic, operand] =>
    match mnemonicOpcode mnemonic with
    | none => .error .unknownMnemonic
    | some opcode =>
      match resolve table operand with
      | some v => .ok (packWord opcode v)
      | none => .error .unrecognizedToken
  | _ => .error .wrongTokenCount

/-- Pass 2: the words and the errors of the real lines, in line order (R90, R98). -/
def secondPass (table : LabelTable) : List RealLine → List Byte × List AsmError
  | [] => ([], [])
  | l :: rest =>
    let (words, errors) := secondPass table rest
    match encodeCode table l.code with
    | .ok w => (w :: words, errors)
    | .error kind => (words, { line := l.line, kind := kind } :: errors)

/-- The image of the encoded words: cells after the last word are 0 (R97, D21). -/
def padImage (words : List Byte) : List Byte := words ++ List.replicate (Config.memWords - words.length) 0#8

/-- The assembler (R85 to R98): an image if the report is empty, else the report: pass 1 errors, end-of-file errors,
pass 2 errors, each in line order. -/
def assemble (source : Text) : Assembly :=
  let first := firstPass source
  let second := secondPass first.labels first.lines
  let errors := sortByLine (first.errors ++ overlongError first.lines) ++ danglingErrors first.pending ++ second.2
  { result := if errors = [] then .image (padImage second.1) else .report errors, labels := first.labels }

/-- The message of an error. Two texts are fixed (R89, R91); "the text of every other message is free" (R98, assumption
log 16). -/
def errorMessage : AsmErrorKind → Text
  | .unrecognizedToken => "unrecognized token".toList
  | .danglingLabel => "label precedes end of file".toList
  | .malformedLabel => Config.freeMessage 0
  | .duplicateLabel => Config.freeMessage 1
  | .wrongTokenCount => Config.freeMessage 2
  | .unknownMnemonic => Config.freeMessage 3
  | .tooManyLines => Config.freeMessage 4

/-- One entry of the report: `Line <n>: <message>` (R98). -/
def reportEntry (e : AsmError) : Text := "Line ".toList ++ naturalText e.line ++ ": ".toList ++ errorMessage e.kind

/-- The error text: the entries, newline-separated (R98). -/
def reportText (errors : List AsmError) : Text := (List.intersperse ['\n'] (errors.map reportEntry)).flatten

end Sys2Proof.Machine
end

