-- ==== Sys2Proof/Machine/Transactions.lean ====
section
/-! DEFINITION. The transactions between the core and its host (10_state.md R40 to R48): reset with an image, run,
observation and the transcript's text. -/

namespace Sys2Proof.Machine

/-- `Reset(image)` (R41, R33, 70_reset_and_hazards.md R200), with the host's inputs and the chain bound as arguments. An
image of any length but 32 is refused and no core is built. -/
def State.boot (image : List Byte) (inputs : List Text) (inputEnd : SourceEnd) (chainBound : Nat) : Result :=
  if imageWellFormed image then
    .next { mem := Memory.ofImage 0 image, acc := 0#8, pc := Config.resetPc, z := true, p := false, status := .running,
            transcript := [], k := 0, inputs := inputs, inputEnd := inputEnd, chainBound := chainBound }
  else .refused (.badImage image.length)

/-- How a run under fuel comes out. -/
inductive RunEnd where
  /-- the run ended: `status` is no longer `Running` (R45, 40_execution_cycle.md R123) -/
  | ended (s : State)
  /-- the fuel is used up and the machine is still running (R120) -/
  | unfinished (s : State)
  /-- the core waits for its host in this state (R47) -/
  | blocked (s : State)
  deriving DecidableEq, Repr

/-- `Run()` (R45): repeat `Step()` until `status` is not `Running`, under fuel (R120; assumption log 20). -/
def run : Nat → State → RunEnd
  | 0, s => if s.status = .running then .unfinished s else .ended s
  | fuel + 1, s =>
    if s.status = .running then
      match step s with
      | .next t => run fuel t
      | .fault _ => .blocked s
      | .refused _ => .blocked s
    else .ended s

/-- What the host may read between steps (R48, 60_exceptions.md R187). -/
structure Observation where
  status : Status
  transcript : List Event
  acc : Byte
  z : Bool
  p : Bool
  pc : Addr
  cells : List Byte
  deriving DecidableEq, Repr

/-- Read the observable state; it changes nothing (R48, 92_eei_decisions.md D15). -/
def State.observe (s : State) : Observation where
  status := s.status
  transcript := s.transcript
  acc := s.acc
  z := s.z
  p := s.p
  pc := s.pc
  cells := (List.range Config.memWords).map (Memory.read s.mem)

/-- The text of one event, for a given prompt text (R44). -/
def renderEvent (promptText : Text) : Event → Text
  | .prompt => promptText
  | .echo t => t
  | .out v => integerText (s8 v) ++ Config.lineTerminator

/-- The concatenation of the events' texts, in order, for a given prompt text (R44). -/
def renderWith (promptText : Text) (events : List Event) : Text := events.flatMap (renderEvent promptText)

/-- The transcript's text (R44), with the machine's `PROMPT_TEXT` (assumption log 2). -/
def renderTranscript (events : List Event) : Text := renderWith Config.promptText events

end Sys2Proof.Machine
end

