-- ==== Sys2Proof/Safety.lean ====
section
/-! DEFINITION. The terms claims use: the invariant, reachable states, what stays unchanged, jump chains and traces. -/

namespace Sys2Proof.Machine

/-- Flags follow the accumulator (10_state.md R30). -/
abbrev State.flagsAgree (s : State) : Prop := (s.z = true ↔ s8 s.acc = 0) ∧ (s.p = true ↔ 0 < s8 s.acc)

/-- The invariant between steps: flags follow the accumulator (R30), a running machine's pc is at most 30 (R31), the
chain counter is 0 (R28), the memory is in its canonical form. -/
abbrev State.consistent (s : State) : Prop :=
  s.flagsAgree ∧ (s.status = .running → s.pc.toNat ≤ Config.codeLimit) ∧ s.k = 0 ∧ Memory.wf s.mem = true

/-- The states a run can reach from a reset with some image, some inputs and some chain bound (R41, R42). -/
inductive Reachable : State → Prop where
  | boot {image : List Byte} {inputs : List Text} {inputEnd : SourceEnd} {chainBound : Nat} {s : State}
      (h : State.boot image inputs inputEnd chainBound = .next s) : Reachable s
  | step {s t : State} (h : Reachable s) (taken : Machine.step s = .next t) : Reachable t

/-- A run that ended well: only `Halted` is a successful end (40_execution_cycle.md R123). -/
abbrev State.succeeded (s : State) : Prop := s.status = .halted

/-- A run that ended with an execution error (40_execution_cycle.md R123). -/
def State.isFaulted (s : State) : Bool :=
  match s.status with
  | .faulted _ _ _ => true
  | .running => false
  | .halted => false

/-- The content of a cell. -/
abbrev State.cell (s : State) (a : Nat) : Byte := Memory.read s.mem a

/-- Every cell reads in `t` as in `s`. -/
def sameCells (s t : State) : Prop := ∀ a : Nat, t.cell a = s.cell a

/-- Every cell but one reads in `t` as in `s`. -/
def sameCellsBut (b : Nat) (s t : State) : Prop := ∀ a : Nat, a ≠ b → t.cell a = s.cell a

/-- The host's side is the same: the input source and the chain bound. -/
def sameHost (s t : State) : Prop := t.inputs = s.inputs ∧ t.inputEnd = s.inputEnd ∧ t.chainBound = s.chainBound

/-- Registers, flags and transcript are the same. -/
def sameRegisters (s t : State) : Prop := t.acc = s.acc ∧ t.z = s.z ∧ t.p = s.p ∧ t.transcript = s.transcript

/-- `Z` and `P` are as `SetFlags(acc)` leaves them (R26). -/
def flagsOfAcc (t : State) : Prop := t.z = decide (s8 t.acc = 0) ∧ t.p = decide (0 < s8 t.acc)

/-- A result with its flags set to given values. -/
def resultWithFlags (z p : Bool) : Result → Result
  | .next t => .next { t with z := z, p := p }
  | .fault r => .fault r
  | .refused r => .refused r

/-- The target of the jump a running machine would take next, the chain bound left aside: the pc is in the code region
and the word there is a `jump`, a `jzer` with `Z` set or a `jpos` with `P` set (41_control_transfer.md R131 to R133). -/
def State.jumpTarget (s : State) : Option Addr :=
  if Config.codeLimit ≤ s.pc.toNat then none
  else
    match decode (s.cell s.pc.toNat) with
    | .jump a => some a
    | .jzer a => if s.z then some a else none
    | .jpos a => if s.p then some a else none
    | .halt _ => none
    | .load _ => none
    | .stor _ => none
    | .add _ => none
    | .sub _ => none

/-- Follow that many taken jumps, the chain bound left aside (41_control_transfer.md R135); `none` where the chain ends
earlier. -/
def followJumps : Nat → State → Option State
  | 0, s => some s
  | n + 1, s =>
    match s.jumpTarget with
    | none => none
    | some a => followJumps n { s with pc := a }

/-- A text that spells an integer in decimal: an optional `-`, then one or more digits, most significant first
(30_encoding.md R92, 42_load_store.md R141). Leading zeros are allowed. -/
def spellsInteger (t : Text) (v : Int) : Prop :=
  ∃ (negative : Bool) (digits : List Nat), digits ≠ [] ∧ (∀ d ∈ digits, d < 10) ∧
    t = (if negative then ['-'] else []) ++ digits.map Nat.digitChar ∧
    v = if negative then -((Nat.ofDigits 10 digits.reverse : Nat) : Int) else ((Nat.ofDigits 10 digits.reverse : Nat) : Int)

/-- The one decimal text of an integer: `-` exactly where it is negative, no `+`, no leading zeros (10_state.md R44). -/
def plainDecimal (t : Text) (v : Int) : Prop :=
  ∃ digits : List Nat, digits ≠ [] ∧ (∀ d ∈ digits, d < 10) ∧ (digits.head? = some 0 → digits = [0]) ∧
    t = (if v < 0 then ['-'] else []) ++ digits.map Nat.digitChar ∧ v.natAbs = Nat.ofDigits 10 digits.reverse

/-- A text that is eight binary digits, most significant first, and the number they spell (30_encoding.md R92 item 1). -/
def spellsByte (t : Text) (v : Nat) : Prop :=
  ∃ bits : List Bool, bits.length = 8 ∧ t = bits.map (fun b => if b then '1' else '0') ∧
    v = Nat.ofDigits 2 (bits.reverse.map Bool.toNat)

/-- A text with its ASCII capital letters made small and every other character kept. -/
def smallLetters (t : Text) : Text :=
  t.map fun c => if 65 ≤ c.toNat ∧ c.toNat ≤ 90 then Char.ofNat (c.toNat + 32) else c

/-- A token: not empty, and no white space in it (30_encoding.md R90). -/
def isToken (t : Text) : Prop := t ≠ [] ∧ ∀ c ∈ t, isWhite c = false

/-- A run of white space: not empty, and nothing but white space in it (30_encoding.md R90). -/
def isGap (t : Text) : Prop := t ≠ [] ∧ ∀ c ∈ t, isWhite c = true

/-- The accepted mnemonics and their opcodes (30_encoding.md R94). -/
def mnemonicTable : List (String × Nat) :=
  [("jump", 1), ("jzer", 2), ("jpos", 3), ("load", 4), ("stor", 5), ("store", 5), ("add", 6), ("sub", 7)]

/-- The sentinels and the signed readings of their words (30_encoding.md R96). -/
def sentinelTable : List (String × Int) := [("halt", 0), ("read", -98), ("write", -65)]

/-- The states after each `Step()`, for at most that many steps, up to the end of the run (R45). -/
def stepTrace : Nat → State → List State
  | 0, _ => []
  | n + 1, s =>
    if s.status = .running then
      match step s with
      | .next t => t :: stepTrace n t
      | .fault _ => []
      | .refused _ => []
    else []

/-- The trampoline (40_execution_cycle.md R121): that many micro-steps one at a time, listing the states at the end of
each micro-step that took no jump. -/
def microTrace : Nat → State → List State
  | 0, _ => []
  | n + 1, s =>
    if s.status = .running then
      match microStep s with
      | .next t => if t.midChain then microTrace n t else t :: microTrace n t
      | .fault _ => []
      | .refused _ => []
    else []

end Sys2Proof.Machine
end

