-- ==== Sys2Proof/Certificates/Slice0/Obligations.lean ====
section
/-! DEFINITION. The statements for the provers. OBLIGATIONS.json lists them in this order. -/

open Sys2Proof Sys2Proof.Machine

/-! ### Numbers, words, decode and encode -/

/-- `trunc8(v)` is the unique integer in −128..127 congruent to `v` modulo 256 (00_scope.md R10). The closed formula, the
last clause, is what R10 marks "[from general knowledge, not in source]" (93_implementation_defined.md G1). -/
def Obligations.TruncationIsTheUniqueByteResidue : Prop :=
  (∀ v r : Int, (-128 ≤ r ∧ r ≤ 127 ∧ r % 256 = v % 256) ↔ r = trunc8 v) ∧
    ∀ v : Int, trunc8 v = (v + 128) % 256 - 128

/-- 43_arithmetic.md R153. -/
def Obligations.TruncationIsIdempotentAndWraps : Prop :=
  (∀ v : Int, trunc8 (trunc8 v) = trunc8 v) ∧ (∀ v : Int, -128 ≤ v → v ≤ 127 → trunc8 v = v) ∧
    trunc8 256 = 0 ∧ trunc8 0 = 0

/-- The opcode is `w[7:5]`, which the source's shift-and-mask formula equals: an inference the spec marks as its own
(30_encoding.md section 2, "[derived: from 00_scope.md rule R12]"). -/
def Obligations.OpcodeFieldIsTheMaskedArithmeticShift : Prop :=
  ∀ w : Byte, ((opcodeField w).toNat : Int) = maskThree (shiftRightArith (s8 w) 5) ∧
    (opcodeField w).toNat = u8 w / 32

/-- 30_encoding.md R76, with decode as the inverse of encode for every opcode and operand. -/
def Obligations.DecodeInvertsEncode : Prop :=
  (∀ i : Instr, i.wellFormed = true → decode (encode i) = i ∧
      u8 (encode i) = i.opcode * 32 + i.operand.toNat ∧
      s8 (encode i) = trunc8 (i.opcode * 32 + i.operand.toNat) ∧
      (i.opcode ≤ 3 → s8 (encode i) = i.opcode * 32 + i.operand.toNat) ∧
      (4 ≤ i.opcode → s8 (encode i) = i.opcode * 32 + i.operand.toNat - 256)) ∧
    s8 (encode (.add 5#5)) = -59

/-- 30_encoding.md R77: every word is exactly one instruction, and the words 0..31 all halt. -/
def Obligations.EveryWordIsOneInstruction : Prop :=
  (∀ w : Byte, encode (decode w) = w ∧ ∀ i : Instr, encode i = w → i = decode w) ∧
    ∀ s : State, s.status = .running → u8 (s.cell s.pc.toNat) ≤ 31 →
      step s = .next { s with status := .halted, k := 0 }

/-- A byte list decodes word by word (30_encoding.md R71), and a list of instructions is what its words decode to. -/
def Obligations.ProgramsDecodeWordByWord : Prop :=
  (∀ is : List Instr, decodeAll (is.map encode) = is) ∧ (∀ ws : List Byte, (decodeAll ws).map encode = ws) ∧
    (∀ (i : Instr) (rest : List Byte), decodeBytes (encode i :: rest) = .ok (i, rest)) ∧
    decodeBytes [] = .error .noWord

/-- Words written out from the opcode map (30_encoding.md R75), one per opcode and one at the top operand. -/
def Obligations.WordsFromTheOpcodeMapDecode : Prop :=
  decode 0b00000000#8 = .halt 0#5 ∧ decode 0b00011111#8 = .halt 31#5 ∧ decode 0b00100010#8 = .jump 2#5 ∧
    decode 0b01001100#8 = .jzer 12#5 ∧ decode 0b01100001#8 = .jpos 1#5 ∧ decode 0b10011110#8 = .load 30#5 ∧
    decode 0b10111111#8 = .stor 31#5 ∧ decode 0b11000101#8 = .add 5#5 ∧ decode 0b11100101#8 = .sub 5#5

/-! ### The cycle -/

/-- A running machine inside the code region executes the instruction its fetched word decodes to. `step` adds: the chain
counter starts at 0, and after a taken jump the chain goes on from the target with the taken jumps the bound leaves. -/
def Obligations.StepRunsTheDecodedInstruction : Prop :=
  ∀ (s : State) (w : Byte) (i : Instr), s.status = .running → s.pc.toNat < 30 → fetch s = some w → decode w = i →
    i.wellFormed = true →
    step s = match exec i { s with k := 0 } with
      | .next t => if t.midChain then chain (s.chainBound - 1) t else .next t
      | .fault r => .fault r
      | .refused r => .refused r

/-- 40_execution_cycle.md R119 and 60_exceptions.md R173: a stopped machine stays as it is, and a run on a faulted one
returns at once. -/
def Obligations.StoppedMachineStaysStopped : Prop :=
  (∀ s : State, s.status ≠ .running → step s = .next s) ∧
    ∀ (s : State) (kind : ErrorKind) (fpc : Addr) (fw : Option Byte) (fuel : Nat),
      s.status = .faulted kind fpc fw → step s = .next s ∧ run fuel s = .ended s

/-- 40_execution_cycle.md R115: op 0 or pc ≥ 30 halts before any execution, writing only `status`. That the chain counter
goes back to 0 is how the model holds it (assumption log 6). -/
def Obligations.HaltTestComesBeforeExecution : Prop :=
  ∀ s : State, s.status = .running → (opcodeField (s.cell s.pc.toNat) = 0#3 ∨ 30 ≤ s.pc.toNat) →
    microStep s = .next { s with status := .halted, k := 0 } ∧
      step s = .next { s with status := .halted, k := 0 }

/-- 40_execution_cycle.md R117: at 30 and 31 the step halts, changing nothing else; how the pc gets there, and when the
halt happens: a taken jump to 30 or 31, the first of its chain or a later one, halts within its own step while the bound
allows the jump. The chain counter's 0 is how the model holds it (assumption log 6). -/
def Obligations.PortRegionIsNeverExecuted : Prop :=
  (∀ s : State, s.status = .running → 30 ≤ s.pc.toNat → step s = .next { s with status := .halted, k := 0 }) ∧
    (∀ s t : State, s.status = .running → s.pc.toNat < 30 → microStep s = .next t → 30 ≤ t.pc.toNat →
      (s.jumpTarget = none ∧ s.pc.toNat = 29 ∧ t.pc.toNat = 30 ∧ t.k = 0) ∨ s.jumpTarget = some t.pc) ∧
    (∀ s t : State, s.status = .running → s.jumpTarget = none → s.pc.toNat = 29 → step s = .next t →
      t.status = .running → t.pc.toNat = 30 ∧ step t = .next { t with status := .halted }) ∧
    ∀ (s u : State) (a : Addr) (n : Nat), s.status = .running → n < s.chainBound → followJumps n s = some u →
      u.jumpTarget = some a → 30 ≤ a.toNat → step s = .next { s with status := .halted, pc := a, k := 0 }

/-- 40_execution_cycle.md R118: where the pc goes in every micro-step. -/
def Obligations.PcAdvancesExactlyWithoutHaltJumpOrRaise : Prop :=
  ∀ s t : State, s.status = .running → microStep s = .next t →
    (t.status = .running → s.jumpTarget = none → t.pc.toNat = s.pc.toNat + 1 ∧ s.pc.toNat ≤ 29 ∧ t.pc.toNat ≤ 30) ∧
    (t.status = .running → ∀ a, s.jumpTarget = some a → t.pc = a) ∧
    (t.status ≠ .running → t.pc = s.pc)

/-- Running micro-steps one at a time gives the states of running whole steps, and during a chain only the pc and the
counter change: an inference the spec marks as its own (40_execution_cycle.md section 5, "[derived: from rule R113 and rule
R114]"), with the counter held in State (assumption log 6). -/
def Obligations.TrampolineAndStepAreTheSameMachine : Prop :=
  (∀ (s : State) (n : Nat), s.k = 0 → ∃ m, microTrace m s = stepTrace n s) ∧
    (∀ (s : State) (m : Nat), s.k = 0 → ∃ n, microTrace m s = stepTrace n s) ∧
    ∀ s t : State, microStep s = .next t → t.k ≠ 0 → ∃ a, t = { s with pc := a, k := s.k + 1 }

/-! ### The instructions -/

/-- `halt` completes, whatever its operand (40_execution_cycle.md section 3). -/
def Obligations.HaltCompletes : Prop :=
  ∀ (a : Addr) (s : State), ∃ t, exec (.halt a) s = .next t ∧ t.status = .halted ∧ t.pc = s.pc ∧ t.k = 0 ∧
    sameRegisters s t ∧ sameCells s t ∧ sameHost s t

/-- A taken `jump`, `jzer` or `jpos` below the chain bound writes the pc and the chain counter only. -/
def Obligations.TakenJumpCompletes : Prop :=
  ∀ (i : Instr) (a : Addr) (s : State),
    (i = .jump a ∨ (i = .jzer a ∧ s.z = true) ∨ (i = .jpos a ∧ s.p = true)) → s.k ≠ s.chainBound →
    ∃ t, exec i s = .next t ∧ t.pc = a ∧ t.k = s.k + 1 ∧ t.status = s.status ∧
      sameRegisters s t ∧ sameCells s t ∧ sameHost s t

/-- A `jzer` with `Z` clear and a `jpos` with `P` clear fall through. -/
def Obligations.UntakenJumpFallsThrough : Prop :=
  ∀ (i : Instr) (a : Addr) (s : State), ((i = .jzer a ∧ s.z = false) ∨ (i = .jpos a ∧ s.p = false)) →
    ∃ t, exec i s = .next t ∧ t.pc = s.pc + 1#5 ∧ t.k = 0 ∧ t.status = s.status ∧
      sameRegisters s t ∧ sameCells s t ∧ sameHost s t

/-- A taken jump at the chain bound raises `JumpChainExceeded` at its own address and word and is not taken. -/
def Obligations.JumpAtTheBoundRaises : Prop :=
  ∀ (i : Instr) (a : Addr) (s : State),
    (i = .jump a ∨ (i = .jzer a ∧ s.z = true) ∨ (i = .jpos a ∧ s.p = true)) → s.k = s.chainBound →
    ∃ t, exec i s = .next t ∧ t.status = .faulted .jumpChainExceeded s.pc (some (s.cell s.pc.toNat)) ∧ t.pc = s.pc ∧
      t.k = 0 ∧ sameRegisters s t ∧ sameCells s t ∧ sameHost s t

/-- `load` of any cell but the input port. -/
def Obligations.LoadOfACellCompletes : Prop :=
  ∀ (a : Addr) (s : State), a ≠ 30#5 → ∃ t, exec (.load a) s = .next t ∧ t.acc = s.cell a.toNat ∧ flagsOfAcc t ∧
    t.pc = s.pc + 1#5 ∧ t.k = 0 ∧ t.status = s.status ∧ t.transcript = s.transcript ∧ sameCells s t ∧ sameHost s t

/-- `load 30` with an input value that parses: Prompt, Echo of the raw text, the port cell, the accumulator. -/
def Obligations.LoadOfTheInputPortCompletes : Prop :=
  ∀ (s : State) (r : Text) (rest : List Text) (v : Byte), s.inputs = r :: rest → parseInput r = some v →
    ∃ t, exec (.load 30#5) s = .next t ∧ t.acc = v ∧ flagsOfAcc t ∧ t.cell 30 = v ∧ sameCellsBut 30 s t ∧
      t.transcript = s.transcript ++ [.prompt, .echo r] ∧ t.inputs = rest ∧ t.inputEnd = s.inputEnd ∧
      t.chainBound = s.chainBound ∧ t.pc = s.pc + 1#5 ∧ t.k = 0 ∧ t.status = s.status

/-- 60_exceptions.md R175. That the host's answers stand in `inputs` and `inputEnd` is the model's form (assumption log
4), as is the counter's 0 (log 6). -/
def Obligations.LoadWithNoInputRaisesInputExhausted : Prop :=
  (∀ s : State, s.inputs = [] → s.inputEnd = .exhausted →
    ∃ t, exec (.load 30#5) s = .next t ∧
      t.status = .faulted .inputExhausted s.pc (some (s.cell s.pc.toNat)) ∧
      t.transcript = s.transcript ++ [.prompt] ∧ t.pc = s.pc ∧ t.k = 0 ∧ t.acc = s.acc ∧ t.z = s.z ∧ t.p = s.p ∧
      sameCells s t ∧ sameHost s t) ∧
    errorCode .inputExhausted = 4

/-- 60_exceptions.md R176. The text is consumed from the model's `inputs` (assumption log 4); the counter's 0 is the
model's (log 6). Which texts fail is `parseInput`'s, whose open part is a free value (log 7). -/
def Obligations.LoadOfBadTextRaisesInputInvalid : Prop :=
  (∀ (s : State) (r : Text) (rest : List Text), s.inputs = r :: rest → parseInput r = none →
    ∃ t, exec (.load 30#5) s = .next t ∧
      t.status = .faulted .inputInvalid s.pc (some (s.cell s.pc.toNat)) ∧
      t.transcript = s.transcript ++ [.prompt] ∧ t.inputs = rest ∧ t.inputEnd = s.inputEnd ∧
      t.chainBound = s.chainBound ∧ t.pc = s.pc ∧ t.k = 0 ∧ t.acc = s.acc ∧ t.z = s.z ∧ t.p = s.p ∧ sameCells s t) ∧
    errorCode .inputInvalid = 5

/-- The core waits, with no transition, exactly in `load 30` when the host never answers (10_state.md section 10; the
model's form of the wait is assumption log 5); no instruction is refused. -/
def Obligations.OnlyAnUnansweredInputLoadWaits : Prop :=
  ∀ (i : Instr) (s : State),
    (exec i s = .fault .waitingForInput ↔ i = .load 30#5 ∧ s.inputs = [] ∧ s.inputEnd = .silent) ∧
      ∀ r, exec i s ≠ .refused r

/-- `stor` to any cell but the output port. -/
def Obligations.StoreToACellCompletes : Prop :=
  ∀ (a : Addr) (s : State), a ≠ 31#5 → ∃ t, exec (.stor a) s = .next t ∧ t.cell a.toNat = s.acc ∧
    sameCellsBut a.toNat s t ∧ sameRegisters s t ∧ t.pc = s.pc + 1#5 ∧ t.k = 0 ∧ t.status = s.status ∧ sameHost s t

/-- 42_load_store.md R143: `stor 31` appends exactly one `Out(acc)` and writes the cell; the event's text; two stores of
one value append two equal events. -/
def Obligations.StoreToTheOutputPortEmits : Prop :=
  ∀ s : State, ∃ t u, exec (.stor 31#5) s = .next t ∧ t.transcript = s.transcript ++ [.out s.acc] ∧
    t.cell 31 = s.acc ∧ sameCellsBut 31 s t ∧ t.acc = s.acc ∧ t.z = s.z ∧ t.p = s.p ∧ t.pc = s.pc + 1#5 ∧ t.k = 0 ∧
    t.status = s.status ∧ sameHost s t ∧
    (∀ promptText, renderWith promptText t.transcript =
      renderWith promptText s.transcript ++ integerText (s8 s.acc) ++ ['\n']) ∧
    exec (.stor 31#5) t = .next u ∧ u.transcript = s.transcript ++ [.out s.acc, .out s.acc]

/-- 43_arithmetic.md R151: `add` of any cell, the port cells too. -/
def Obligations.AddCompletes : Prop :=
  ∀ (a : Addr) (s : State), ∃ t, exec (.add a) s = .next t ∧ u8 (encode (.add a)) = 192 + a.toNat ∧
    s8 t.acc = trunc8 (s8 s.acc + s8 (s.cell a.toNat)) ∧ flagsOfAcc t ∧ t.pc = s.pc + 1#5 ∧ t.k = 0 ∧
    t.status = s.status ∧ t.transcript = s.transcript ∧ sameCells s t ∧ sameHost s t

/-- 43_arithmetic.md R152: `sub` of any cell, the port cells too. -/
def Obligations.SubCompletes : Prop :=
  ∀ (a : Addr) (s : State), ∃ t, exec (.sub a) s = .next t ∧ u8 (encode (.sub a)) = 224 + a.toNat ∧
    s8 t.acc = trunc8 (s8 s.acc - s8 (s.cell a.toNat)) ∧ flagsOfAcc t ∧ t.pc = s.pc + 1#5 ∧ t.k = 0 ∧
    t.status = s.status ∧ t.transcript = s.transcript ∧ sameCells s t ∧ sameHost s t

/-- 43_arithmetic.md R150: the result pattern is the unsigned sum or difference of the patterns modulo 256. -/
def Obligations.ArithmeticIsModulo256OnPatterns : Prop :=
  ∀ (a : Addr) (s t : State),
    (exec (.add a) s = .next t → u8 t.acc = (u8 s.acc + u8 (s.cell a.toNat)) % 256 ∧
      s8 t.acc = trunc8 (s8 s.acc + s8 (s.cell a.toNat)) ∧ -128 ≤ s8 t.acc ∧ s8 t.acc ≤ 127) ∧
    (exec (.sub a) s = .next t → u8 t.acc = (u8 s.acc + 256 - u8 (s.cell a.toNat)) % 256 ∧
      s8 t.acc = trunc8 (s8 s.acc - s8 (s.cell a.toNat)) ∧ -128 ≤ s8 t.acc ∧ s8 t.acc ≤ 127)

/-- The wrapped results for every sign combination; overflow is not reported and does not trap: an inference the spec
marks as its own (43_arithmetic.md section 3, "[derived: from rule R150]"). -/
def Obligations.OverflowResultsBySigns : Prop :=
  ∀ (a : Addr) (s t u : State), exec (.add a) s = .next t → exec (.sub a) s = .next u →
    let x := s8 s.acc
    let m := s8 (s.cell a.toNat)
    (0 ≤ x → 0 ≤ m → 127 < x + m → x + m ≤ 254 ∧ s8 t.acc = x + m - 256 ∧ -128 ≤ s8 t.acc ∧ s8 t.acc ≤ -2) ∧
    (x < 0 → m < 0 → x + m < -128 → -256 ≤ x + m ∧ s8 t.acc = x + m + 256 ∧ 0 ≤ s8 t.acc ∧ s8 t.acc ≤ 127 ∧
      (s8 t.acc = 0 ↔ x = -128 ∧ m = -128)) ∧
    ((0 ≤ x ∧ m < 0) ∨ (x < 0 ∧ 0 ≤ m) → s8 t.acc = x + m) ∧
    (-128 ≤ x + m → x + m ≤ 127 → s8 t.acc = x + m) ∧
    (-255 ≤ x - m ∧ x - m ≤ 255) ∧
    (127 < x - m → 0 ≤ x ∧ m < 0 ∧ s8 u.acc = x - m - 256) ∧
    (x - m < -128 → x < 0 ∧ 0 < m ∧ s8 u.acc = x - m + 256) ∧
    (-128 ≤ x - m → x - m ≤ 127 → s8 u.acc = x - m) ∧
    t.status = s.status ∧ u.status = s.status

/-- A store is seen by the very next fetch of its cell, so code can be rewritten (20_memory.md section 3). -/
def Obligations.StoreIsSeenByTheNextFetch : Prop :=
  ∀ (a : Addr) (s : State), a.toNat < 30 → ∃ t, exec (.stor a) s = .next t ∧
    (t.pc = a → fetch t = some s.acc ∧ microStep t = exec (decode s.acc) t) ∧
    ∃ u, exec (.load a) t = .next u ∧ u.acc = s.acc

/-! ### Rules over all instructions -/

/-- 10_state.md R26: who writes the flags and with what, who reads them, and their reset values. -/
def Obligations.FlagsAreWrittenAndReadAsListed : Prop :=
  (∀ (v : Byte) (s : State), (s.setFlags v).z = decide (s8 v = 0) ∧ (s.setFlags v).p = decide (0 < s8 v)) ∧
    (∀ (i : Instr) (s t : State), exec i s = .next t →
      (t.status = .running → (i.opcode = 4 ∨ i.opcode = 6 ∨ i.opcode = 7) → flagsOfAcc t) ∧
      (¬ (i.opcode = 4 ∨ i.opcode = 6 ∨ i.opcode = 7) → t.z = s.z ∧ t.p = s.p)) ∧
    (∀ (i : Instr) (s : State) (z p : Bool), i.opcode ≠ 2 → i.opcode ≠ 3 →
      resultWithFlags false false (exec i { s with z := z, p := p }) = resultWithFlags false false (exec i s)) ∧
    (∀ (a : Addr) (s : State) (b : Bool),
      resultWithFlags false false (exec (.jzer a) { s with p := b }) = resultWithFlags false false (exec (.jzer a) s) ∧
      resultWithFlags false false (exec (.jpos a) { s with z := b }) = resultWithFlags false false (exec (.jpos a) s)) ∧
    ∀ (image : List Byte) (inputs : List Text) (e : SourceEnd) (b : Nat) (s : State),
      State.boot image inputs e b = .next s → s.z = true ∧ s.p = false

/-- 10_state.md R27: only `load 30` and `stor 31` append to the transcript, what they append, and nothing is removed. -/
def Obligations.OnlyThePortInstructionsAppendEvents : Prop :=
  (∀ (i : Instr) (s t : State), exec i s = .next t → ∃ events, t.transcript = s.transcript ++ events ∧
      (events ≠ [] →
        (i = .load 30#5 ∧ (events = [.prompt] ∨ ∃ r rest, s.inputs = r :: rest ∧ events = [.prompt, .echo r])) ∨
        (i = .stor 31#5 ∧ events = [.out s.acc]))) ∧
    ∀ s t : State, step s = .next t → ∃ events, t.transcript = s.transcript ++ events

/-- 20_memory.md R64: the image's words at reset, and who changes the memory after it. -/
def Obligations.OnlyStoresAndInputChangeTheMemory : Prop :=
  (∀ (image : List Byte) (inputs : List Text) (e : SourceEnd) (b : Nat) (s : State),
      State.boot image inputs e b = .next s → ∀ n : Nat, n < 32 → some (s.cell n) = image[n]?) ∧
    ∀ (i : Instr) (s t : State) (n : Nat), exec i s = .next t → t.cell n ≠ s.cell n →
      (∃ a : Addr, i = .stor a ∧ a.toNat = n) ∨ (i = .load 30#5 ∧ n = 30)

/-- Flags follow the accumulator in every reachable state, every step keeps that, and only the writers of the accumulator
write flags: an inference the spec marks as its own (10_state.md section 7, "[derived: from rule R26 and rule R33]"). -/
def Obligations.FlagsFollowTheAccumulator : Prop :=
  (∀ s : State, Reachable s → s.flagsAgree ∧ ¬ (s.z = true ∧ s.p = true)) ∧
    (∀ s t : State, s.flagsAgree → step s = .next t → t.flagsAgree) ∧
    ∀ (i : Instr) (s t : State), exec i s = .next t → (t.acc ≠ s.acc ∨ t.z ≠ s.z ∨ t.p ≠ s.p) →
      flagsOfAcc t ∧ (i.opcode = 4 ∨ i.opcode = 6 ∨ i.opcode = 7)

/-- The pc of a running machine is at most 30; at 30 the next step only halts; a halted pc can be any address: an inference
the spec marks as its own (10_state.md section 7). -/
def Obligations.RunningPcIsAtMost30 : Prop :=
  (∀ s : State, Reachable s → s.status = .running → s.pc.toNat ≤ 30) ∧
    (∀ s : State, Reachable s → s.status = .running → s.pc.toNat = 30 → step s = .next { s with status := .halted }) ∧
    ∀ a : Addr, ∃ s : State, Reachable s ∧ s.status = .halted ∧ s.pc = a

/-- The invariant between steps is kept by every step, from every state that has it, reached or not. That the flags follow
the accumulator and that a running pc is at most 30 are inferences the spec marks as its own (10_state.md R30, R31); that the
counter is 0 between steps is R28's with log 6; the memory's canonical form is the model's own (assumption log 19). -/
def Obligations.StepKeepsTheInvariant : Prop :=
  ∀ s t : State, s.consistent → step s = .next t → t.consistent

/-- The invariant holds of the machine right after reset. Its memory clause is about the empty list that `State.reset` holds
(assumption log 3) in the model's own canonical form (log 19), and its counter is log 6's. -/
def Obligations.ResetHasTheInvariant : Prop :=
  State.reset.consistent

/-- The reset values of 10_state.md section 9, for every image of 32 words. The model's own beside them: an image of any other
length is refused (section 10 of that file; the form of the refusal is assumption log 18), the host's inputs and the chain
bound are the arguments given (logs 1 and 4), and `consistent` holds the memory's canonical form (log 19). -/
def Obligations.ResetTransactionLoadsTheImage : Prop :=
  ∀ (image : List Byte) (inputs : List Text) (e : SourceEnd) (b : Nat),
    (image.length = 32 → ∃ s, State.boot image inputs e b = .next s ∧ s.acc = 0#8 ∧ s.pc = 0#5 ∧ s.z = true ∧
      s.p = false ∧ s.status = .running ∧ s.transcript = [] ∧ s.k = 0 ∧ (∀ n : Nat, n < 32 → some (s.cell n) = image[n]?) ∧
      s.inputs = inputs ∧ s.inputEnd = e ∧ s.chainBound = b ∧ s.consistent) ∧
    (image.length ≠ 32 → State.boot image inputs e b = .refused (.badImage image.length))

/-- The flags at reset are those of an accumulator of 0; until a `load`, `add` or `sub` they stand so, and then `jzer` is
taken (below the chain bound) and `jpos` falls through: an inference the spec marks as its own (70_reset_and_hazards.md
section 1, "[derived: from rule R200 and 10_state.md rule R26]"). -/
def Obligations.FlagsAtResetMatchTheAccumulator : Prop :=
  (∀ (image : List Byte) (inputs : List Text) (e : SourceEnd) (b : Nat) (s : State),
      State.boot image inputs e b = .next s → s.setFlags 0#8 = s) ∧
    (∀ (i : Instr) (s t : State), exec i s = .next t → s.z = true → s.p = false →
      ¬ (i.opcode = 4 ∨ i.opcode = 6 ∨ i.opcode = 7) → t.z = true ∧ t.p = false) ∧
    ∀ (a : Addr) (s : State), s.z = true → s.p = false →
      (s.k ≠ s.chainBound → exec (.jzer a) s = .next { s with pc := a, k := s.k + 1 }) ∧
      exec (.jpos a) s = .next { s with pc := s.pc + 1#5, k := 0 }

/-- No step changes the chain bound or the host's last answer, and a step consumes at most one input value. The three fields
are the model's place for what the host holds (assumption logs 1 and 4; 10_state.md sections 6 and 9). -/
def Obligations.StepOnlyConsumesInput : Prop :=
  ∀ s t : State, step s = .next t → t.chainBound = s.chainBound ∧ t.inputEnd = s.inputEnd ∧
    (t.inputs = s.inputs ∨ ∃ r, s.inputs = r :: t.inputs)

/-- The host's input source reaches a step only through `load 30`: a step that appends no Prompt does the same under any
other input source. -/
def Obligations.InputSourceIsSeenOnlyThroughPrompts : Prop :=
  ∀ (s t : State) (inputs : List Text) (e : SourceEnd), step s = .next t →
    Event.prompt ∉ t.transcript.drop s.transcript.length →
    step { s with inputs := inputs, inputEnd := e } = .next { t with inputs := inputs, inputEnd := e }

/-! ### Execution errors -/

/-- 60_exceptions.md R171: what a step that ends in an execution error leaves: the state of before the step but for the
status, the pc of the chain's taken jumps, and the Prompt of an input error. The counter's 0 and the input fields are the
model's form (assumption logs 4 and 6). -/
def Obligations.ExecutionErrorsArePrecise : Prop :=
  ∀ (s t : State) (kind : ErrorKind) (fpc : Addr) (fw : Option Byte), s.status = .running → step s = .next t →
    t.status = .faulted kind fpc fw →
    t.pc = fpc ∧ fw = some (s.cell fpc.toNat) ∧ t.acc = s.acc ∧ t.z = s.z ∧ t.p = s.p ∧ t.k = 0 ∧ t.mem = s.mem ∧
      t.transcript = s.transcript ++
        (if kind = .inputExhausted ∨ kind = .inputInvalid then [Event.prompt] else []) ∧
      (∃ n, followJumps n s = some { s with pc := fpc }) ∧
      (kind ≠ .inputInvalid → t.inputs = s.inputs) ∧ t.inputEnd = s.inputEnd ∧ t.chainBound = s.chainBound

/-- The two out-of-range kinds are kept and never raised with 5-bit addresses; an address outside 0..31 carried in a wider
type finds no cell and is never wrapped (20_memory.md section 1, 60_exceptions.md section 2). -/
def Obligations.OutOfRangeErrorsAreUnreachable : Prop :=
  (∀ (s t : State) (fpc : Addr) (fw : Option Byte), s.status = .running → step s = .next t →
      t.status ≠ .faulted .fetchOutOfRange fpc fw ∧ t.status ≠ .faulted .memoryOutOfRange fpc fw) ∧
    ∀ (s : State) (n : Nat) (v : Byte), (s.memRead n = none ↔ 32 ≤ n) ∧ (s.memWrite n v = none ↔ 32 ≤ n)

/-- When `JumpChainExceeded` is raised and what it records (60_exceptions.md section 2); with a bound of 30 or more, exactly
for chains that never end, which rests on an inference the spec marks as its own (41_control_transfer.md R135, "[derived:
from rule R130, …]"). -/
def Obligations.ChainExceededExactlyWhenTheBoundIsPassed : Prop :=
  (∀ (s : State) (fpc : Addr) (fw : Option Byte), s.status = .running →
    ((∃ t, step s = .next t ∧ t.status = .faulted .jumpChainExceeded fpc fw) ↔
      ∃ u a, followJumps s.chainBound s = some u ∧ u.jumpTarget = some a ∧ fpc = u.pc ∧
        fw = some (s.cell u.pc.toNat))) ∧
    (∀ s : State, s.status = .running → 30 ≤ s.chainBound →
      ((∃ t fpc fw, step s = .next t ∧ t.status = .faulted .jumpChainExceeded fpc fw) ↔
        ∀ n, (followJumps n s).isSome = true)) ∧
    errorCode .jumpChainExceeded = 3

/-- A chain of taken jumps that ends takes at most 30 jumps, all standing at different addresses of the code region, and
changes only the pc (41_control_transfer.md section 3). -/
def Obligations.FiniteChainsAreAtMost30Jumps : Prop :=
  ∀ (s t : State) (n : Nat), followJumps n s = some t → t = { s with pc := t.pc } ∧
    (∀ j u, j < n → followJumps j s = some u → u.pc.toNat < 30) ∧
    (t.jumpTarget = none → n ≤ 30 ∧ ∀ i j u v, i < j → j < n → followJumps i s = some u → followJumps j s = some v →
      u.pc ≠ v.pc)

/-! ### The host's transactions and the assembler -/

/-- `run` is the host's own iteration of the step. It ends, or is unfinished, exactly at the state that as many steps as its
fuel lead to, stopped or still running there; it is blocked exactly in a running state that fewer steps lead to and whose own
step waits. More fuel goes on from where an unfinished run stopped (10_state.md section 10, 40_execution_cycle.md section 5).
The fuel and the report of an unfinished run are the model's form (assumption log 20), and so is the wait (log 5). -/
def Obligations.RunIsRepeatedStep : Prop :=
  (∀ (n : Nat) (s t : State), run n s = .ended t ↔
      Host.Core.run Sys2Proof.core n s = .next t ∧ t.status ≠ .running) ∧
    (∀ (n : Nat) (s t : State), run n s = .unfinished t ↔
      Host.Core.run Sys2Proof.core n s = .next t ∧ t.status = .running) ∧
    (∀ (n : Nat) (s t : State), run n s = .blocked t ↔
      ∃ m, m < n ∧ Host.Core.run Sys2Proof.core m s = .next t ∧ t.status = .running ∧
        step t = .fault .waitingForInput) ∧
    ∀ (m n : Nat) (s : State), run (m + n) s = match run m s with
      | .unfinished t => run n t
      | .ended t => .ended t
      | .blocked t => .blocked t

/-- The decimal text of an integer has a `-` exactly where it is negative, no `+` and no leading zeros, and no other text is
like that; it is read back as the integer it renders, and an output's digits, given back as input, parse to the byte that was
output (10_state.md section 10, 42_load_store.md section 1). -/
def Obligations.OutputTextReadsBack : Prop :=
  (∀ (v : Int) (t : Text), t = integerText v ↔ plainDecimal t v) ∧
    (∀ v : Int, parseInteger (integerText v) = some v) ∧ ∀ b : Byte, parseInput (integerText (s8 b)) = some b

/-- Packing an operand in 0..31 keeps the opcode bits: the word decodes to the instruction that was written
(30_encoding.md section 4, 70_reset_and_hazards.md section 3). -/
def Obligations.PackedOperandsInRangeKeepTheOpcode : Prop :=
  ∀ (opcode : Nat) (v : Int), opcode < 8 → operandWellFormed v = true →
    (decode (packWord opcode v)).opcode = opcode ∧ ((decode (packWord opcode v)).operand.toNat : Int) = v

/-- The sentinels, letter case ignored, and what their words decode to (30_encoding.md section 4). That letter case is that of
the ASCII letters alone, the first clause, is the model's choice (assumption log 17). -/
def Obligations.SentinelsAreTheHaltAndPortWords : Prop :=
  (∀ tok : Text, foldCase tok = smallLetters tok) ∧
    ∀ tok : Text,
      (smallLetters tok = "halt".toList → ∃ w, sentinelWord tok = some w ∧ s8 w = 0 ∧ u8 w = 0x00 ∧ decode w = .halt 0#5) ∧
      (smallLetters tok = "read".toList →
        ∃ w, sentinelWord tok = some w ∧ s8 w = -98 ∧ u8 w = 0x9E ∧ decode w = .load 30#5) ∧
      (smallLetters tok = "write".toList →
        ∃ w, sentinelWord tok = some w ∧ s8 w = -65 ∧ u8 w = 0xBF ∧ decode w = .stor 31#5) ∧
      (smallLetters tok ≠ "halt".toList → smallLetters tok ≠ "read".toList → smallLetters tok ≠ "write".toList →
        sentinelWord tok = none)

/-- The assembler gives an image of 32 words, which resets a core, or a report that is not empty (30_encoding.md section
4). -/
def Obligations.AssemblyIsAnImageOrAReport : Prop :=
  ∀ source : Text,
    (∃ words, (assemble source).result = .image words ∧ words.length = 32 ∧
      ∀ inputs e b, ∃ s, State.boot words inputs e b = .next s) ∨
    ∃ errors, (assemble source).result = .report errors ∧ errors ≠ []

/-- 30_encoding.md R89: each label still pending at the end of the source gives exactly one error, at its own line, with
the quoted message. -/
def Obligations.DanglingLabelsAreReportedOnce : Prop :=
  ∀ source : Text, (firstPass source).pending ≠ [] →
    ∃ errors, (assemble source).result = .report errors ∧
      errors.filter (fun e => e.kind == .danglingLabel) =
        ((firstPass source).pending.map fun l => { line := l.line, kind := .danglingLabel }) ∧
      ∀ line : Nat, reportEntry { line := line, kind := .danglingLabel } =
        "Line ".toList ++ naturalText line ++ ": label precedes end of file".toList

/-! ### Input text, transcript text and source lines -/

/-- `ParseInput` reads exactly the texts that are, between white space, an optional `-` and one or more decimal digits, and
its value is `trunc8` of the integer they spell; every other text fails (42_load_store.md section 1, with its four examples
and a `+`). Which characters are white space is assumption log 7's, and that digits are ASCII is log 8's. -/
def Obligations.ParseInputReadsExactlyTheDecimalTexts : Prop :=
  (∀ (r : Text) (b : Byte), parseInput r = some b ↔
      ∃ before digits after v, r = before ++ digits ++ after ∧ (∀ c ∈ before, isWhite c = true) ∧
        (∀ c ∈ after, isWhite c = true) ∧ spellsInteger digits v ∧ s8 b = trunc8 v) ∧
    (∀ r : Text, parseInput r = none ↔ ¬ ∃ before digits after v, r = before ++ digits ++ after ∧
      (∀ c ∈ before, isWhite c = true) ∧ (∀ c ∈ after, isWhite c = true) ∧ spellsInteger digits v) ∧
    (∀ c : Char, c.toNat = 32 ∨ 9 ≤ c.toNat ∧ c.toNat ≤ 13 → isWhite c = true) ∧
    (∀ c : Char, 33 ≤ c.toNat → c.toNat ≤ 126 → isWhite c = false) ∧
    parseInput "7".toList = some (cellOf 7) ∧ parseInput " -5 ".toList = some (cellOf (-5)) ∧
    parseInput "200".toList = some (cellOf (-56)) ∧ parseInput "x".toList = none ∧ parseInput "+7".toList = none

/-- 10_state.md R44: the text of each event, for every prompt text, and the transcript's text as their concatenation in
order. -/
def Obligations.TranscriptTextIsItsEventsTexts : Prop :=
  (∀ promptText : Text, renderEvent promptText .prompt = promptText ∧
      (∀ t : Text, renderEvent promptText (.echo t) = t) ∧
      (∀ v : Byte, ∃ digits, plainDecimal digits (s8 v) ∧ renderEvent promptText (.out v) = digits ++ ['\n']) ∧
      renderEvent promptText (.out (cellOf (-91))) = "-91\n".toList ∧
      renderEvent promptText (.out (cellOf 0)) = "0\n".toList ∧
      ∀ events : List Event, renderWith promptText events = (events.map (renderEvent promptText)).flatten) ∧
    ∀ events : List Event, renderTranscript events = renderWith Config.promptText events

/-- 30_encoding.md R92: what `Resolve` answers, "the first successful interpretation wins": eight binary digits, else a
decimal literal, else the index a label is bound to, else nothing. -/
def Obligations.ResolveTakesTheFirstReading : Prop :=
  ∀ (table : LabelTable) (tok : Text),
    (∀ v, spellsByte tok v → resolve table tok = some v) ∧
    ((¬ ∃ v, spellsByte tok v) → ∀ v, spellsInteger tok v → resolve table tok = some v) ∧
    ((¬ ∃ v, spellsByte tok v) → (¬ ∃ v, spellsInteger tok v) →
      (∀ v, resolve table tok = some v → ∃ index : Nat, v = index ∧ (tok, index) ∈ table) ∧
      (resolve table tok = none ↔ ∀ index, (tok, index) ∉ table)) ∧
    resolve table "00000101".toList = some 5 ∧ resolve table "10000000".toList = some 128

/-- A code part falls into its tokens at the runs of white space (30_encoding.md section 4); one token encodes to its
sentinel's word, else to `trunc8` of what it resolves to, else it is an unrecognized token; no token or more than two are an
error. Letter case is that of the ASCII letters (assumption log 17), white space is log 7's. -/
def Obligations.CodePartsEncodeByTheirTokens : Prop :=
  (∀ (front : List (Text × Text)) (last : Text), (∀ piece ∈ front, isToken piece.1 ∧ isGap piece.2) → isToken last →
      tokensOf ((front.map fun piece => piece.1 ++ piece.2).flatten ++ last) = front.map Prod.fst ++ [last]) ∧
    (∀ (table : LabelTable) (code : Text), (tokensOf code).length ≠ 1 → (tokensOf code).length ≠ 2 →
      encodeCode table code = .error .wrongTokenCount) ∧
    ∀ (table : LabelTable) (tok : Text), isToken tok →
      (∀ name word, (name, word) ∈ sentinelTable → smallLetters tok = name.toList →
        ∃ w, encodeCode table tok = .ok w ∧ s8 w = word) ∧
      ((∀ name word, (name, word) ∈ sentinelTable → smallLetters tok ≠ name.toList) →
        (∀ v, resolve table tok = some v → ∃ w, encodeCode table tok = .ok w ∧ s8 w = trunc8 v) ∧
        (resolve table tok = none → encodeCode table tok = .error .unrecognizedToken))

/-- A code part of two tokens encodes by the mnemonic table: an accepted mnemonic, letter case ignored, and an operand that
resolves give `trunc8(opcode·32 + value)`, which for a value in 0..31 is that instruction with that operand; a first token
that is no mnemonic is an unknown mnemonic, a sentinel's name and whatever the operand is included; an operand that does not
resolve is an unrecognized token (30_encoding.md section 4). Letter case is that of the ASCII letters (assumption log 17),
white space is log 7's. -/
def Obligations.MnemonicLinesEncodeByTheTable : Prop :=
  (∀ (table : LabelTable) (mnemonic gap operand : Text), isToken mnemonic → isGap gap → isToken operand →
      (∀ name opcode, (name, opcode) ∈ mnemonicTable → smallLetters mnemonic = name.toList →
        (∀ v, resolve table operand = some v → ∃ w, encodeCode table (mnemonic ++ gap ++ operand) = .ok w ∧
          s8 w = trunc8 (opcode * 32 + v) ∧
          (operandWellFormed v = true → (decode w).opcode = opcode ∧ ((decode w).operand.toNat : Int) = v)) ∧
        (resolve table operand = none →
          encodeCode table (mnemonic ++ gap ++ operand) = .error .unrecognizedToken)) ∧
      ((∀ name opcode, (name, opcode) ∈ mnemonicTable → smallLetters mnemonic ≠ name.toList) →
        encodeCode table (mnemonic ++ gap ++ operand) = .error .unknownMnemonic)) ∧
    ∀ table : LabelTable, encodeCode table "add -1".toList = .ok (encode (.stor 31#5)) ∧
      encodeCode table "jump 40".toList = .ok (encode (.jzer 8#5)) ∧
      encodeCode table "add 100".toList = .ok (encode (.jump 4#5)) ∧
      encodeCode table "halt 5".toList = .error .unknownMnemonic
end

