-- ==== Sys2Proof/Laws/Memory.lean ====
section
/-! SUPPORT. The memory: reading after a write, the canonical form, and the accesses of a 5-bit address. -/

namespace Sys2Proof.Machine

@[simp] theorem read_nil (a : Nat) : Memory.read [] a = Memory.unlisted := rfl

theorem read_cons (c : Host.Cell) (m : Memory) (a : Nat) :
    Memory.read (c :: m) a = if a = c.1 then c.2 else Memory.read m a := rfl

theorem read_of_absent {m : Memory} {a : Nat} (h : ∀ c ∈ m, c.1 ≠ a) : Memory.read m a = Memory.unlisted := by
  induction m with
  | nil => rfl
  | cons c m ih =>
    have hc : a ≠ c.1 := fun e => h c (by simp) e.symm
    rw [read_cons, if_neg hc]
    exact ih fun d hd => h d (by simp [hd])

theorem read_filter_other {m : Memory} {a b : Nat} (h : a ≠ b) :
    Memory.read (m.filter fun c => c.1 != b) a = Memory.read m a := by
  induction m with
  | nil => rfl
  | cons c m ih =>
    by_cases hb : c.1 = b
    · have : a ≠ c.1 := hb ▸ h
      simp [hb, ih, read_cons, h]
    · simp [hb, read_cons, ih]

theorem read_place_same {m : Memory} {a : Nat} (v : Byte) (h : ∀ c ∈ m, c.1 ≠ a) :
    Memory.read (Memory.place m (a, v)) a = v := by
  induction m with
  | nil => simp [Memory.place, read_cons]
  | cons c m ih =>
    have hc : a ≠ c.1 := fun e => h c (by simp) e.symm
    simp only [Memory.place]
    split
    · simp [read_cons]
    · rw [read_cons, if_neg hc]
      exact ih fun d hd => h d (by simp [hd])

theorem read_place_other {m : Memory} {a : Nat} {x : Host.Cell} (h : a ≠ x.1) :
    Memory.read (Memory.place m x) a = Memory.read m a := by
  induction m with
  | nil => simp [Memory.place, read_cons, h]
  | cons c m ih =>
    simp only [Memory.place]
    split
    · simp [read_cons, h]
    · simp [read_cons, ih]

/-- A read after a write to the same cell gives the value written. -/
@[simp] theorem read_write_same (m : Memory) (a : Nat) (v : Byte) : Memory.read (Memory.write m a v) a = v := by
  have hf : ∀ c ∈ m.filter (fun c => c.1 != a), c.1 ≠ a := by simp
  simp only [Memory.write]
  split
  · next hv => rw [read_of_absent hf, hv]
  · exact read_place_same v hf

/-- A write leaves every other cell alone. -/
@[simp] theorem read_write_other (m : Memory) {a b : Nat} (v : Byte) (h : a ≠ b) :
    Memory.read (Memory.write m b v) a = Memory.read m a := by
  simp only [Memory.write]
  split
  · exact read_filter_other h
  · rw [read_place_other (by simpa using h), read_filter_other h]

/-- The canonical form, as a statement about the whole list. -/
theorem wf_iff (m : Memory) : Memory.wf m = true ↔
    m.Pairwise (fun c d => c.1 < d.1) ∧ ∀ c ∈ m, c.1 < Config.memWords ∧ c.2 ≠ Memory.unlisted := by
  induction m with
  | nil => simp [Memory.wf]
  | cons c m ih =>
    simp only [Memory.wf, Bool.and_eq_true, decide_eq_true_eq, List.all_eq_true, List.pairwise_cons, List.forall_mem_cons, ih]
    constructor
    · rintro ⟨⟨⟨h1, h2⟩, h3⟩, h4, h5⟩
      exact ⟨⟨fun d hd => h3 d hd, h4⟩, ⟨h1, h2⟩, h5⟩
    · rintro ⟨⟨h3, h4⟩, ⟨h1, h2⟩, h5⟩
      exact ⟨⟨⟨h1, h2⟩, fun d hd => h3 d hd⟩, h4, h5⟩

theorem mem_place {m : Memory} {x c : Host.Cell} : c ∈ Memory.place m x ↔ c = x ∨ c ∈ m := by
  induction m with
  | nil => simp [Memory.place]
  | cons d m ih =>
    simp only [Memory.place]
    split
    · simp
    · simp only [List.mem_cons, ih]
      tauto

theorem pairwise_place {m : Memory} {x : Host.Cell} (hm : m.Pairwise fun c d => c.1 < d.1)
    (hx : ∀ c ∈ m, c.1 ≠ x.1) : (Memory.place m x).Pairwise fun c d => c.1 < d.1 := by
  induction m with
  | nil => simp [Memory.place]
  | cons d m ih =>
    obtain ⟨hd, hm'⟩ := List.pairwise_cons.mp hm
    have hdx : d.1 ≠ x.1 := hx d (by simp)
    simp only [Memory.place]
    split
    · next hlt =>
      refine List.pairwise_cons.mpr ⟨fun c hc => ?_, hm⟩
      rcases List.mem_cons.mp hc with rfl | hc
      · exact hlt
      · exact Nat.lt_trans hlt (hd c hc)
    · next hge =>
      refine List.pairwise_cons.mpr ⟨fun c hc => ?_, ih hm' fun c hc => hx c (by simp [hc])⟩
      rcases mem_place.mp hc with rfl | hc
      · omega
      · exact hd c hc

/-- A write to one of the 32 cells keeps the canonical form. -/
theorem wf_write {m : Memory} {a : Nat} (v : Byte) (hm : Memory.wf m = true) (ha : a < Config.memWords) :
    Memory.wf (Memory.write m a v) = true := by
  obtain ⟨hp, hc⟩ := (wf_iff m).mp hm
  have hp' : (m.filter fun c => c.1 != a).Pairwise fun c d => c.1 < d.1 := hp.filter _
  have hc' : ∀ c ∈ m.filter (fun c => c.1 != a), c.1 < Config.memWords ∧ c.2 ≠ Memory.unlisted := fun c h =>
    hc c (List.mem_filter.mp h).1
  rw [wf_iff]
  simp only [Memory.write]
  split
  · exact ⟨hp', hc'⟩
  · next hv =>
    refine ⟨pairwise_place hp' (by simp), fun c h => ?_⟩
    rcases mem_place.mp h with rfl | h
    · exact ⟨ha, hv⟩
    · exact hc' c h

theorem ofImage_bounds {base : Nat} {ws : List Byte} {c : Host.Cell} (h : c ∈ Memory.ofImage base ws) :
    base ≤ c.1 ∧ c.1 < base + ws.length ∧ c.2 ≠ Memory.unlisted := by
  induction ws generalizing base with
  | nil => simp [Memory.ofImage] at h
  | cons w ws ih =>
    simp only [Memory.ofImage] at h
    split at h
    · obtain ⟨h1, h2, h3⟩ := ih h
      exact ⟨by omega, by simp only [List.length_cons]; omega, h3⟩
    · next hw =>
      rcases List.mem_cons.mp h with rfl | h
      · exact ⟨Nat.le_refl _, by simp, hw⟩
      · obtain ⟨h1, h2, h3⟩ := ih h
        exact ⟨by omega, by simp only [List.length_cons]; omega, h3⟩

theorem pairwise_ofImage (base : Nat) (ws : List Byte) :
    (Memory.ofImage base ws).Pairwise fun c d => c.1 < d.1 := by
  induction ws generalizing base with
  | nil => simp [Memory.ofImage]
  | cons w ws ih =>
    simp only [Memory.ofImage]
    split
    · exact ih _
    · exact List.pairwise_cons.mpr ⟨fun c hc => (ofImage_bounds hc).1, ih _⟩

/-- The memory of an image of at most 32 words is in canonical form. -/
theorem wf_ofImage {ws : List Byte} (h : ws.length ≤ Config.memWords) : Memory.wf (Memory.ofImage 0 ws) = true :=
  (wf_iff _).mpr ⟨pairwise_ofImage 0 ws, fun c hc => by
    obtain ⟨_, h2, h3⟩ := ofImage_bounds hc
    exact ⟨by omega, h3⟩⟩

/-- The memory of an image holds the image's words. -/
theorem read_ofImage (base : Nat) (ws : List Byte) (i : Nat) (h : i < ws.length) :
    Memory.read (Memory.ofImage base ws) (base + i) = ws[i] := by
  induction ws generalizing base i with
  | nil => simp at h
  | cons w ws ih =>
    have next : ∀ j (hj : j < ws.length), Memory.read (Memory.ofImage (base + 1) ws) (base + (j + 1)) = ws[j] := by
      intro j hj
      have := ih (base + 1) j hj
      rwa [show base + 1 + j = base + (j + 1) by omega] at this
    simp only [Memory.ofImage]
    cases i with
    | zero =>
      split
      · next hw =>
        rw [read_of_absent fun c hc => by have := (ofImage_bounds hc).1; omega]
        simp [hw]
      · simp [read_cons]
    | succ j =>
      have hj : j < ws.length := by simpa using h
      split
      · simpa using next j hj
      · rw [read_cons, if_neg (by simp)]
        simpa using next j hj

/-- Every 5-bit address is in range (20_memory.md R55). -/
@[simp] theorem inRange_address (a : Addr) : inRange a.toNat = true := by
  have := a.isLt
  exact decide_eq_true this

@[simp] theorem memRead_operand (s : State) (a : Addr) :
    s.memRead (effectiveAddress a) = some (Memory.read s.mem a.toNat) := by simp [State.memRead, effectiveAddress]

@[simp] theorem memWrite_operand (s : State) (a : Addr) (v : Byte) :
    s.memWrite (effectiveAddress a) v = some { s with mem := Memory.write s.mem a.toNat v } := by
  simp [State.memWrite, effectiveAddress]

/-- A fetch reads the cell at the pc (40_execution_cycle.md R111). -/
@[simp] theorem fetch_eq (s : State) : fetch s = some (Memory.read s.mem s.pc.toNat) := by simp [fetch, State.memRead]

end Sys2Proof.Machine
end

