-- ==== Sys2Proof/Laws/Numbers.lean ====
section
/-! SUPPORT. The signed reading, the wrap and the ALU. -/

namespace Sys2Proof.Machine

/-- The signed reading is the library's. -/
theorem s8_eq_toInt (w : Byte) : s8 w = w.toInt := by
  have := w.isLt
  simp only [s8, BitVec.msb_eq_decide, BitVec.toInt, decide_eq_true_eq]
  split <;> split <;> omega

theorem s8_bounds (w : Byte) : -128 ≤ s8 w ∧ s8 w ≤ 127 := by
  have := w.isLt
  simp only [s8, BitVec.msb_eq_decide, decide_eq_true_eq]
  split <;> omega

theorem trunc8_eq_bmod (v : Int) : trunc8 v = v.bmod 256 := by
  simp only [trunc8, Int.bmod]
  split <;> omega

@[simp] theorem s8_cellOf (v : Int) : s8 (cellOf v) = trunc8 v := by
  rw [s8_eq_toInt, cellOf, BitVec.toInt_ofInt, trunc8_eq_bmod]

theorem cellOf_trunc8 (v : Int) : cellOf (trunc8 v) = cellOf v := by
  apply BitVec.eq_of_toInt_eq
  rw [← s8_eq_toInt, ← s8_eq_toInt, s8_cellOf, s8_cellOf]
  simp only [trunc8]
  omega

/-- The ALU's addition is addition modulo 256 (43_arithmetic.md R150). -/
theorem aluAdd_eq (x y : Byte) : aluAdd x y = x + y := by
  rw [aluAdd, cellOf_trunc8, cellOf, BitVec.ofInt_add, s8_eq_toInt, s8_eq_toInt, BitVec.ofInt_toInt, BitVec.ofInt_toInt]

/-- The ALU's subtraction is subtraction modulo 256 (43_arithmetic.md R150). -/
theorem aluSub_eq (x y : Byte) : aluSub x y = x - y := by
  apply BitVec.eq_of_toInt_eq
  rw [aluSub, cellOf_trunc8, ← s8_eq_toInt, s8_cellOf, trunc8_eq_bmod, BitVec.toInt_sub, s8_eq_toInt, s8_eq_toInt]

/-- The signed reading of a sum. -/
theorem s8_aluAdd (x y : Byte) : s8 (aluAdd x y) = trunc8 (s8 x + s8 y) := by
  rw [aluAdd, cellOf_trunc8, s8_cellOf]

/-- The signed reading of a difference. -/
theorem s8_aluSub (x y : Byte) : s8 (aluSub x y) = trunc8 (s8 x - s8 y) := by
  rw [aluSub, cellOf_trunc8, s8_cellOf]

theorem zeroFlag_eq (v : Byte) : zeroFlag v = decide (s8 v = 0) := rfl

theorem positiveFlag_eq (v : Byte) : positiveFlag v = decide (0 < s8 v) := rfl

end Sys2Proof.Machine
end

