-- ==== Sys2Proof/Laws/State.lean ====
section
/-! SUPPORT. One lemma per field per named update of State, so that no proof unfolds a record update. -/

namespace Sys2Proof.Machine

@[simp] theorem emit_mem (e : Event) (s : State) : (s.emit e).mem = s.mem := rfl
@[simp] theorem emit_acc (e : Event) (s : State) : (s.emit e).acc = s.acc := rfl
@[simp] theorem emit_pc (e : Event) (s : State) : (s.emit e).pc = s.pc := rfl
@[simp] theorem emit_z (e : Event) (s : State) : (s.emit e).z = s.z := rfl
@[simp] theorem emit_p (e : Event) (s : State) : (s.emit e).p = s.p := rfl
@[simp] theorem emit_status (e : Event) (s : State) : (s.emit e).status = s.status := rfl
@[simp] theorem emit_transcript (e : Event) (s : State) : (s.emit e).transcript = s.transcript ++ [e] := rfl
@[simp] theorem emit_k (e : Event) (s : State) : (s.emit e).k = s.k := rfl
@[simp] theorem emit_inputs (e : Event) (s : State) : (s.emit e).inputs = s.inputs := rfl
@[simp] theorem emit_inputEnd (e : Event) (s : State) : (s.emit e).inputEnd = s.inputEnd := rfl
@[simp] theorem emit_chainBound (e : Event) (s : State) : (s.emit e).chainBound = s.chainBound := rfl

@[simp] theorem advance_mem (s : State) : s.advance.mem = s.mem := rfl
@[simp] theorem advance_acc (s : State) : s.advance.acc = s.acc := rfl
@[simp] theorem advance_pc (s : State) : s.advance.pc = s.pc + 1#5 := rfl
@[simp] theorem advance_z (s : State) : s.advance.z = s.z := rfl
@[simp] theorem advance_p (s : State) : s.advance.p = s.p := rfl
@[simp] theorem advance_status (s : State) : s.advance.status = s.status := rfl
@[simp] theorem advance_transcript (s : State) : s.advance.transcript = s.transcript := rfl
@[simp] theorem advance_k (s : State) : s.advance.k = 0 := rfl
@[simp] theorem advance_inputs (s : State) : s.advance.inputs = s.inputs := rfl
@[simp] theorem advance_inputEnd (s : State) : s.advance.inputEnd = s.inputEnd := rfl
@[simp] theorem advance_chainBound (s : State) : s.advance.chainBound = s.chainBound := rfl

@[simp] theorem halt_mem (s : State) : s.halt.mem = s.mem := rfl
@[simp] theorem halt_acc (s : State) : s.halt.acc = s.acc := rfl
@[simp] theorem halt_pc (s : State) : s.halt.pc = s.pc := rfl
@[simp] theorem halt_z (s : State) : s.halt.z = s.z := rfl
@[simp] theorem halt_p (s : State) : s.halt.p = s.p := rfl
@[simp] theorem halt_status (s : State) : s.halt.status = .halted := rfl
@[simp] theorem halt_transcript (s : State) : s.halt.transcript = s.transcript := rfl
@[simp] theorem halt_k (s : State) : s.halt.k = 0 := rfl
@[simp] theorem halt_inputs (s : State) : s.halt.inputs = s.inputs := rfl
@[simp] theorem halt_inputEnd (s : State) : s.halt.inputEnd = s.inputEnd := rfl
@[simp] theorem halt_chainBound (s : State) : s.halt.chainBound = s.chainBound := rfl

@[simp] theorem raise_mem (kind : ErrorKind) (s : State) : (s.raise kind).mem = s.mem := rfl
@[simp] theorem raise_acc (kind : ErrorKind) (s : State) : (s.raise kind).acc = s.acc := rfl
@[simp] theorem raise_pc (kind : ErrorKind) (s : State) : (s.raise kind).pc = s.pc := rfl
@[simp] theorem raise_z (kind : ErrorKind) (s : State) : (s.raise kind).z = s.z := rfl
@[simp] theorem raise_p (kind : ErrorKind) (s : State) : (s.raise kind).p = s.p := rfl
@[simp] theorem raise_status (kind : ErrorKind) (s : State) : (s.raise kind).status = .faulted kind s.pc (fetch s) := rfl
@[simp] theorem raise_transcript (kind : ErrorKind) (s : State) : (s.raise kind).transcript = s.transcript := rfl
@[simp] theorem raise_k (kind : ErrorKind) (s : State) : (s.raise kind).k = 0 := rfl
@[simp] theorem raise_inputs (kind : ErrorKind) (s : State) : (s.raise kind).inputs = s.inputs := rfl
@[simp] theorem raise_inputEnd (kind : ErrorKind) (s : State) : (s.raise kind).inputEnd = s.inputEnd := rfl
@[simp] theorem raise_chainBound (kind : ErrorKind) (s : State) : (s.raise kind).chainBound = s.chainBound := rfl

@[simp] theorem setFlags_mem (v : Byte) (s : State) : (s.setFlags v).mem = s.mem := rfl
@[simp] theorem setFlags_acc (v : Byte) (s : State) : (s.setFlags v).acc = s.acc := rfl
@[simp] theorem setFlags_pc (v : Byte) (s : State) : (s.setFlags v).pc = s.pc := rfl
@[simp] theorem setFlags_z (v : Byte) (s : State) : (s.setFlags v).z = zeroFlag v := rfl
@[simp] theorem setFlags_p (v : Byte) (s : State) : (s.setFlags v).p = positiveFlag v := rfl
@[simp] theorem setFlags_status (v : Byte) (s : State) : (s.setFlags v).status = s.status := rfl
@[simp] theorem setFlags_transcript (v : Byte) (s : State) : (s.setFlags v).transcript = s.transcript := rfl
@[simp] theorem setFlags_k (v : Byte) (s : State) : (s.setFlags v).k = s.k := rfl
@[simp] theorem setFlags_inputs (v : Byte) (s : State) : (s.setFlags v).inputs = s.inputs := rfl
@[simp] theorem setFlags_inputEnd (v : Byte) (s : State) : (s.setFlags v).inputEnd = s.inputEnd := rfl
@[simp] theorem setFlags_chainBound (v : Byte) (s : State) : (s.setFlags v).chainBound = s.chainBound := rfl

@[simp] theorem writeAcc_mem (v : Byte) (s : State) : (s.writeAcc v).mem = s.mem := rfl
@[simp] theorem writeAcc_acc (v : Byte) (s : State) : (s.writeAcc v).acc = v := rfl
@[simp] theorem writeAcc_pc (v : Byte) (s : State) : (s.writeAcc v).pc = s.pc := rfl
@[simp] theorem writeAcc_z (v : Byte) (s : State) : (s.writeAcc v).z = zeroFlag v := rfl
@[simp] theorem writeAcc_p (v : Byte) (s : State) : (s.writeAcc v).p = positiveFlag v := rfl
@[simp] theorem writeAcc_status (v : Byte) (s : State) : (s.writeAcc v).status = s.status := rfl
@[simp] theorem writeAcc_transcript (v : Byte) (s : State) : (s.writeAcc v).transcript = s.transcript := rfl
@[simp] theorem writeAcc_k (v : Byte) (s : State) : (s.writeAcc v).k = s.k := rfl
@[simp] theorem writeAcc_inputs (v : Byte) (s : State) : (s.writeAcc v).inputs = s.inputs := rfl
@[simp] theorem writeAcc_inputEnd (v : Byte) (s : State) : (s.writeAcc v).inputEnd = s.inputEnd := rfl
@[simp] theorem writeAcc_chainBound (v : Byte) (s : State) : (s.writeAcc v).chainBound = s.chainBound := rfl

@[simp] theorem placeWord_mem (w : Byte) (s : State) : (s.placeWord w).mem = Memory.write s.mem s.pc.toNat w := rfl
@[simp] theorem placeWord_acc (w : Byte) (s : State) : (s.placeWord w).acc = s.acc := rfl
@[simp] theorem placeWord_pc (w : Byte) (s : State) : (s.placeWord w).pc = s.pc := rfl
@[simp] theorem placeWord_z (w : Byte) (s : State) : (s.placeWord w).z = s.z := rfl
@[simp] theorem placeWord_p (w : Byte) (s : State) : (s.placeWord w).p = s.p := rfl
@[simp] theorem placeWord_status (w : Byte) (s : State) : (s.placeWord w).status = s.status := rfl
@[simp] theorem placeWord_transcript (w : Byte) (s : State) : (s.placeWord w).transcript = s.transcript := rfl
@[simp] theorem placeWord_k (w : Byte) (s : State) : (s.placeWord w).k = s.k := rfl
@[simp] theorem placeWord_inputs (w : Byte) (s : State) : (s.placeWord w).inputs = s.inputs := rfl
@[simp] theorem placeWord_inputEnd (w : Byte) (s : State) : (s.placeWord w).inputEnd = s.inputEnd := rfl
@[simp] theorem placeWord_chainBound (w : Byte) (s : State) : (s.placeWord w).chainBound = s.chainBound := rfl

end Sys2Proof.Machine
end

