-- ==== Sys2Proof/Laws/Ops.lean ====
section
/-! SUPPORT. One lemma for each shared operation, saying once what it can do. -/

namespace Sys2Proof.Machine

/-- An operand access always finds its cell. -/
@[simp] theorem withCell_eq (a : Addr) (s : State) (use : Byte → State) :
    withCell a s use = use (Memory.read s.mem a.toNat) := by simp [withCell]

/-- A taken jump raises at the chain bound and is taken otherwise (41_control_transfer.md R130). -/
theorem takeJump_cases (a : Addr) (s : State) :
    (s.k = s.chainBound ∧ takeJump a s = s.raise .jumpChainExceeded) ∨
      (s.k ≠ s.chainBound ∧ takeJump a s = { s with pc := a, k := s.k + 1 }) := by
  by_cases h : s.k = s.chainBound
  · exact .inl ⟨h, if_pos h⟩
  · exact .inr ⟨h, if_neg h⟩

/-- A conditional jump is taken or falls through. -/
theorem jumpIf_cases (taken : Bool) (a : Addr) (s : State) :
    (taken = true ∧ jumpIf taken a s = takeJump a s) ∨ (taken = false ∧ jumpIf taken a s = s.advance) := by
  cases taken
  · exact .inr ⟨rfl, rfl⟩
  · exact .inl ⟨rfl, rfl⟩

@[simp] theorem loadCell_eq (a : Addr) (s : State) :
    loadCell a s = (s.writeAcc (Memory.read s.mem a.toNat)).advance := by simp [loadCell]

/-- The state in which a port read has asked, consumed `r` and echoed it, and stored `v` (42_load_store.md R141). -/
def inputStored (s : State) (r : Text) (rest : List Text) (v : Byte) : State :=
  { s with transcript := s.transcript ++ [.prompt, .echo r], inputs := rest, mem := Memory.write s.mem 30 v }

@[simp] theorem inputStored_mem (s : State) (r : Text) (rest : List Text) (v : Byte) :
    (inputStored s r rest v).mem = Memory.write s.mem 30 v := rfl

@[simp] theorem inputStored_acc (s : State) (r : Text) (rest : List Text) (v : Byte) :
    (inputStored s r rest v).acc = s.acc := rfl

@[simp] theorem inputStored_pc (s : State) (r : Text) (rest : List Text) (v : Byte) :
    (inputStored s r rest v).pc = s.pc := rfl

@[simp] theorem inputStored_z (s : State) (r : Text) (rest : List Text) (v : Byte) :
    (inputStored s r rest v).z = s.z := rfl

@[simp] theorem inputStored_p (s : State) (r : Text) (rest : List Text) (v : Byte) :
    (inputStored s r rest v).p = s.p := rfl

@[simp] theorem inputStored_status (s : State) (r : Text) (rest : List Text) (v : Byte) :
    (inputStored s r rest v).status = s.status := rfl

@[simp] theorem inputStored_transcript (s : State) (r : Text) (rest : List Text) (v : Byte) :
    (inputStored s r rest v).transcript = s.transcript ++ [.prompt, .echo r] := rfl

@[simp] theorem inputStored_k (s : State) (r : Text) (rest : List Text) (v : Byte) :
    (inputStored s r rest v).k = s.k := rfl

@[simp] theorem inputStored_inputs (s : State) (r : Text) (rest : List Text) (v : Byte) :
    (inputStored s r rest v).inputs = rest := rfl

@[simp] theorem inputStored_inputEnd (s : State) (r : Text) (rest : List Text) (v : Byte) :
    (inputStored s r rest v).inputEnd = s.inputEnd := rfl

@[simp] theorem inputStored_chainBound (s : State) (r : Text) (rest : List Text) (v : Byte) :
    (inputStored s r rest v).chainBound = s.chainBound := rfl

/-- Everything a port read can do (R141). -/
theorem readInputPort_cases (s : State) :
    (s.inputs = [] ∧ s.inputEnd = .silent ∧ readInputPort s = .waiting) ∨
    (s.inputs = [] ∧ s.inputEnd = .exhausted ∧ readInputPort s = .failed .inputExhausted (s.emit .prompt)) ∨
    (∃ r rest, s.inputs = r :: rest ∧ parseInput r = none ∧
      readInputPort s = .failed .inputInvalid { s.emit .prompt with inputs := rest }) ∨
    (∃ r rest v, s.inputs = r :: rest ∧ parseInput r = some v ∧ readInputPort s = .ready (inputStored s r rest v)) := by
  cases hi : s.inputs with
  | nil =>
    cases he : s.inputEnd with
    | exhausted => exact .inr (.inl ⟨rfl, rfl, by simp [readInputPort, hi, he]⟩)
    | silent => exact .inl ⟨rfl, rfl, by simp [readInputPort, hi, he]⟩
  | cons r rest =>
    cases hp : parseInput r with
    | none => exact .inr (.inr (.inl ⟨r, rest, rfl, hp, by simp [readInputPort, hi, hp]⟩))
    | some v =>
      refine .inr (.inr (.inr ⟨r, rest, v, rfl, hp, ?_⟩))
      simp [readInputPort, hi, hp, inputStored, State.emit, Config.inputPort]

end Sys2Proof.Machine
end

