-- ==== Sys2Proof/Laws/Exec.lean ====
section
/-! SUPPORT. What each instruction can do, said once. -/

namespace Sys2Proof.Machine

@[simp] theorem exec_halt (a : Addr) (s : State) : exec (.halt a) s = .next s.halt := rfl

@[simp] theorem exec_jump (a : Addr) (s : State) : exec (.jump a) s = .next (takeJump a s) := rfl

@[simp] theorem exec_jzer (a : Addr) (s : State) : exec (.jzer a) s = .next (jumpIf s.z a s) := rfl

@[simp] theorem exec_jpos (a : Addr) (s : State) : exec (.jpos a) s = .next (jumpIf s.p a s) := rfl

@[simp] theorem exec_add (a : Addr) (s : State) :
    exec (.add a) s = .next (s.writeAcc (aluAdd s.acc (Memory.read s.mem a.toNat))).advance := by simp [exec, execAdd]

@[simp] theorem exec_sub (a : Addr) (s : State) :
    exec (.sub a) s = .next (s.writeAcc (aluSub s.acc (Memory.read s.mem a.toNat))).advance := by simp [exec, execSub]

/-- A store to any cell but the output port. -/
theorem exec_stor_plain {a : Addr} (h : a ≠ Config.outputPort) (s : State) :
    exec (.stor a) s = .next { s with mem := Memory.write s.mem a.toNat s.acc }.advance := by
  simp [exec, execStor, h]

/-- A store to the output port. -/
theorem exec_stor_port (s : State) :
    exec (.stor Config.outputPort) s =
      .next { s.emit (.out s.acc) with mem := Memory.write s.mem Config.outputPort.toNat s.acc }.advance := by
  simp [exec, execStor]

/-- A load from any cell but the input port. -/
theorem exec_load_plain {a : Addr} (h : a ≠ Config.inputPort) (s : State) :
    exec (.load a) s = .next (s.writeAcc (Memory.read s.mem a.toNat)).advance := by
  simp [exec, execLoad, h]

/-- Everything a load from the input port can do (42_load_store.md R141). -/
theorem exec_load_port_cases (s : State) :
    (s.inputs = [] ∧ s.inputEnd = .silent ∧ exec (.load Config.inputPort) s = .fault .waitingForInput) ∨
    (s.inputs = [] ∧ s.inputEnd = .exhausted ∧
      exec (.load Config.inputPort) s = .next ((s.emit .prompt).raise .inputExhausted)) ∨
    (∃ r rest, s.inputs = r :: rest ∧ parseInput r = none ∧
      exec (.load Config.inputPort) s = .next ({ s.emit .prompt with inputs := rest }.raise .inputInvalid)) ∨
    (∃ r rest v, s.inputs = r :: rest ∧ parseInput r = some v ∧
      exec (.load Config.inputPort) s = .next ((inputStored s r rest v).writeAcc v).advance) := by
  obtain ⟨h1, h2, h⟩ | ⟨h1, h2, h⟩ | ⟨r, rest, h1, h2, h⟩ | ⟨r, rest, v, h1, h2, h⟩ := readInputPort_cases s
  · exact .inl ⟨h1, h2, by simp [exec, execLoad, h]⟩
  · exact .inr (.inl ⟨h1, h2, by simp [exec, execLoad, h]⟩)
  · exact .inr (.inr (.inl ⟨r, rest, h1, h2, by simp [exec, execLoad, h]⟩))
  · exact .inr (.inr (.inr ⟨r, rest, v, h1, h2, by simp [exec, execLoad, h, inputStored, Config.inputPort]⟩))

/-- Everything an instruction can do when it answers a next state, one case per way of ending. -/
inductive ExecNext (s : State) : Instr → State → Prop where
  | halted (a : Addr) : ExecNext s (.halt a) s.halt
  | jumped {i : Instr} {a : Addr} (hi : i = .jump a ∨ (i = .jzer a ∧ s.z = true) ∨ (i = .jpos a ∧ s.p = true))
      (hk : s.k ≠ s.chainBound) : ExecNext s i { s with pc := a, k := s.k + 1 }
  | exceeded {i : Instr} {a : Addr} (hi : i = .jump a ∨ (i = .jzer a ∧ s.z = true) ∨ (i = .jpos a ∧ s.p = true))
      (hk : s.k = s.chainBound) : ExecNext s i (s.raise .jumpChainExceeded)
  | fellThrough {i : Instr} {a : Addr} (hi : (i = .jzer a ∧ s.z = false) ∨ (i = .jpos a ∧ s.p = false)) :
      ExecNext s i s.advance
  | loaded {a : Addr} (ha : a ≠ Config.inputPort) :
      ExecNext s (.load a) (s.writeAcc (Memory.read s.mem a.toNat)).advance
  | input {r : Text} {rest : List Text} {v : Byte} (hr : s.inputs = r :: rest) (hv : parseInput r = some v) :
      ExecNext s (.load Config.inputPort) ((inputStored s r rest v).writeAcc v).advance
  | exhausted (hi : s.inputs = []) (he : s.inputEnd = .exhausted) :
      ExecNext s (.load Config.inputPort) ((s.emit .prompt).raise .inputExhausted)
  | invalid {r : Text} {rest : List Text} (hr : s.inputs = r :: rest) (hv : parseInput r = none) :
      ExecNext s (.load Config.inputPort) ({ s.emit .prompt with inputs := rest }.raise .inputInvalid)
  | stored {a : Addr} (ha : a ≠ Config.outputPort) :
      ExecNext s (.stor a) { s with mem := Memory.write s.mem a.toNat s.acc }.advance
  | output : ExecNext s (.stor Config.outputPort)
      { s.emit (.out s.acc) with mem := Memory.write s.mem Config.outputPort.toNat s.acc }.advance
  | added (a : Addr) : ExecNext s (.add a) (s.writeAcc (aluAdd s.acc (Memory.read s.mem a.toNat))).advance
  | subtracted (a : Addr) : ExecNext s (.sub a) (s.writeAcc (aluSub s.acc (Memory.read s.mem a.toNat))).advance

theorem execNext_takeJump {i : Instr} {a : Addr} {s : State}
    (hi : i = .jump a ∨ (i = .jzer a ∧ s.z = true) ∨ (i = .jpos a ∧ s.p = true)) : ExecNext s i (takeJump a s) := by
  obtain ⟨hk, h⟩ | ⟨hk, h⟩ := takeJump_cases a s
  · exact h ▸ .exceeded hi hk
  · exact h ▸ .jumped hi hk

/-- The inversion lemma of `exec`. -/
theorem exec_next {i : Instr} {s t : State} (h : exec i s = .next t) : ExecNext s i t := by
  cases i with
  | halt a => obtain rfl : s.halt = t := by simpa using h
              exact .halted a
  | jump a => obtain rfl : takeJump a s = t := by simpa using h
              exact execNext_takeJump (.inl rfl)
  | jzer a =>
    obtain rfl : jumpIf s.z a s = t := by simpa using h
    obtain ⟨hz, e⟩ | ⟨hz, e⟩ := jumpIf_cases s.z a s
    · exact e ▸ execNext_takeJump (.inr (.inl ⟨rfl, hz⟩))
    · exact e ▸ .fellThrough (.inl ⟨rfl, hz⟩)
  | jpos a =>
    obtain rfl : jumpIf s.p a s = t := by simpa using h
    obtain ⟨hp, e⟩ | ⟨hp, e⟩ := jumpIf_cases s.p a s
    · exact e ▸ execNext_takeJump (.inr (.inr ⟨rfl, hp⟩))
    · exact e ▸ .fellThrough (.inr ⟨rfl, hp⟩)
  | load a =>
    by_cases ha : a = Config.inputPort
    · subst ha
      obtain ⟨_, _, e⟩ | ⟨h1, h2, e⟩ | ⟨r, rest, h1, h2, e⟩ | ⟨r, rest, v, h1, h2, e⟩ := exec_load_port_cases s
      · exact absurd (h.symm.trans e) (by simp)
      · obtain rfl := Host.Outcome.next.inj (h.symm.trans e)
        exact .exhausted h1 h2
      · obtain rfl := Host.Outcome.next.inj (h.symm.trans e)
        exact .invalid h1 h2
      · obtain rfl := Host.Outcome.next.inj (h.symm.trans e)
        exact .input h1 h2
    · obtain rfl := Host.Outcome.next.inj (h.symm.trans (exec_load_plain ha s))
      exact .loaded ha
  | stor a =>
    by_cases ha : a = Config.outputPort
    · subst ha
      obtain rfl := Host.Outcome.next.inj (h.symm.trans (exec_stor_port s))
      exact .output
    · obtain rfl := Host.Outcome.next.inj (h.symm.trans (exec_stor_plain ha s))
      exact .stored ha
  | add a => obtain rfl := Host.Outcome.next.inj (h.symm.trans (exec_add a s))
             exact .added a
  | sub a => obtain rfl := Host.Outcome.next.inj (h.symm.trans (exec_sub a s))
             exact .subtracted a

/-- No instruction is refused. -/
theorem exec_not_refused (i : Instr) (s : State) (r : Refusal) : exec i s ≠ .refused r := by
  cases i with
  | halt a => simp
  | jump a => simp
  | jzer a => simp
  | jpos a => simp
  | load a =>
    by_cases ha : a = Config.inputPort
    · subst ha
      obtain ⟨_, _, e⟩ | ⟨_, _, e⟩ | ⟨_, _, _, _, e⟩ | ⟨_, _, _, _, _, e⟩ := exec_load_port_cases s <;> simp [e]
    · simp [exec_load_plain ha]
  | stor a =>
    by_cases ha : a = Config.outputPort
    · simp [ha, exec_stor_port]
    · simp [exec_stor_plain ha]
  | add a => simp
  | sub a => simp

end Sys2Proof.Machine
end

