-- ==== Sys2Proof/Laws/PerInstr.lean ====
section
/-! SUPPORT. Statements made per instruction, about an instruction as syntax. -/

namespace Sys2Proof.Laws

/-- The word of an instruction holds its opcode in bits 7:5 and its operand in bits 4:0, and is the number `op·32 + a`
(30_encoding.md R70, R76); the instruction is well formed. -/
def WordFields.Statement (i : Instr) : Prop :=
  (opcodeField (encode i)).toNat = i.opcode ∧ operandField (encode i) = i.operand ∧
    Machine.u8 (encode i) = i.opcode * 32 + i.operand.toNat ∧ i.wellFormed = true

theorem toNat_packFields (op : BitVec 3) (a : Addr) : (packFields op a).toNat = op.toNat * 32 + a.toNat := by
  have := a.isLt
  rw [packFields, BitVec.toNat_append, ← Nat.shiftLeft_add_eq_or_of_lt this, Nat.shiftLeft_eq]

theorem operandField_packFields (op : BitVec 3) (a : Addr) : operandField (packFields op a) = a := by
  have := a.isLt
  apply BitVec.eq_of_toNat_eq
  rw [operandField, BitVec.extractLsb'_toNat, toNat_packFields]
  simp only [Nat.shiftRight_zero]
  omega

theorem opcodeField_packFields (op : BitVec 3) (a : Addr) : opcodeField (packFields op a) = op := by
  have := a.isLt
  have := op.isLt
  apply BitVec.eq_of_toNat_eq
  rw [opcodeField, BitVec.extractLsb'_toNat, toNat_packFields, Nat.shiftRight_eq_div_pow]
  omega

theorem operand_inMap (a : Addr) : decide (a.toNat < Config.memWords) = true := decide_eq_true a.isLt

theorem WordFields.halt (a : Addr) : WordFields.Statement (.halt a) :=
  ⟨by simp [encode, opcodeField_packFields, Instr.opcode], by simp [encode, operandField_packFields, Instr.operand],
    toNat_packFields _ a, operand_inMap a⟩

theorem WordFields.jump (a : Addr) : WordFields.Statement (.jump a) :=
  ⟨by simp [encode, opcodeField_packFields, Instr.opcode], by simp [encode, operandField_packFields, Instr.operand],
    toNat_packFields _ a, operand_inMap a⟩

theorem WordFields.jzer (a : Addr) : WordFields.Statement (.jzer a) :=
  ⟨by simp [encode, opcodeField_packFields, Instr.opcode], by simp [encode, operandField_packFields, Instr.operand],
    toNat_packFields _ a, operand_inMap a⟩

theorem WordFields.jpos (a : Addr) : WordFields.Statement (.jpos a) :=
  ⟨by simp [encode, opcodeField_packFields, Instr.opcode], by simp [encode, operandField_packFields, Instr.operand],
    toNat_packFields _ a, operand_inMap a⟩

theorem WordFields.load (a : Addr) : WordFields.Statement (.load a) :=
  ⟨by simp [encode, opcodeField_packFields, Instr.opcode], by simp [encode, operandField_packFields, Instr.operand],
    toNat_packFields _ a, operand_inMap a⟩

theorem WordFields.stor (a : Addr) : WordFields.Statement (.stor a) :=
  ⟨by simp [encode, opcodeField_packFields, Instr.opcode], by simp [encode, operandField_packFields, Instr.operand],
    toNat_packFields _ a, operand_inMap a⟩

theorem WordFields.add (a : Addr) : WordFields.Statement (.add a) :=
  ⟨by simp [encode, opcodeField_packFields, Instr.opcode], by simp [encode, operandField_packFields, Instr.operand],
    toNat_packFields _ a, operand_inMap a⟩

theorem WordFields.sub (a : Addr) : WordFields.Statement (.sub a) :=
  ⟨by simp [encode, opcodeField_packFields, Instr.opcode], by simp [encode, operandField_packFields, Instr.operand],
    toNat_packFields _ a, operand_inMap a⟩

end Sys2Proof.Laws
end

