-- ==== Sys2Proof/Laws/Step.lean ====
section
/-! SUPPORT. The micro-step, the jump chain and the step, each inverted once. -/

namespace Sys2Proof.Machine

@[simp] theorem cell_eq (s : State) (a : Nat) : s.cell a = Memory.read s.mem a := rfl

/-- A micro-step outside the code region halts; inside, it executes the word at the pc. -/
theorem microStep_eq (s : State) : microStep s =
    if Config.codeLimit ≤ s.pc.toNat then .next s.halt else exec (decode (s.cell s.pc.toNat)) s := by
  simp [microStep]

/-- The word at the pc is a jump that is taken exactly where `jumpTarget` says so. -/
theorem jumpTarget_eq_some {s : State} {a : Addr} : s.jumpTarget = some a ↔ ¬ Config.codeLimit ≤ s.pc.toNat ∧
    (decode (s.cell s.pc.toNat) = .jump a ∨ (decode (s.cell s.pc.toNat) = .jzer a ∧ s.z = true) ∨
      (decode (s.cell s.pc.toNat) = .jpos a ∧ s.p = true)) := by
  unfold State.jumpTarget
  split
  · simp [*]
  · cases decode (s.cell s.pc.toNat) <;> simp [*] <;> tauto

/-- `jumpTarget` looks at the memory, the flags and the pc only. -/
theorem jumpTarget_congr {s t : State} (hm : t.mem = s.mem) (hz : t.z = s.z) (hp : t.p = s.p) (hpc : t.pc = s.pc) :
    t.jumpTarget = s.jumpTarget := by simp [State.jumpTarget, State.cell, hm, hz, hp, hpc]

/-- A jump that is taken, under the chain bound and at it (41_control_transfer.md R130). -/
theorem microStep_of_target {s : State} {a : Addr} (h : s.jumpTarget = some a) : microStep s = .next (takeJump a s) := by
  obtain ⟨hpc, hi⟩ := jumpTarget_eq_some.mp h
  rw [microStep_eq, if_neg hpc]
  obtain e | ⟨e, hf⟩ | ⟨e, hf⟩ := hi
  · rw [e, exec_jump]
  · rw [e, exec_jzer, hf]; rfl
  · rw [e, exec_jpos, hf]; rfl

/-- Without a taken jump, a micro-step leaves the chain counter at 0. -/
theorem microStep_of_no_target {s t : State} (h : s.jumpTarget = none) (ht : microStep s = .next t) : t.k = 0 := by
  rw [microStep_eq] at ht
  split at ht
  · obtain rfl := Host.Outcome.next.inj ht
    rfl
  · next hpc =>
    have stray : ∀ a i, decode (s.cell s.pc.toNat) = i →
        (i = .jump a ∨ (i = .jzer a ∧ s.z = true) ∨ (i = .jpos a ∧ s.p = true)) → False := by
      intro a i hi hj
      have := jumpTarget_eq_some.mpr ⟨hpc, hi ▸ hj⟩
      simp [h] at this
    generalize hi : decode (s.cell s.pc.toNat) = i at ht
    cases exec_next ht with
    | jumped hj hk => exact (stray _ _ hi hj).elim
    | exceeded hj hk => exact (stray _ _ hi hj).elim
    | halted => rfl
    | fellThrough => rfl
    | loaded => rfl
    | input => rfl
    | exhausted => rfl
    | invalid => rfl
    | stored => rfl
    | output => rfl
    | added => rfl
    | subtracted => rfl

theorem followJumps_succ {n : Nat} {s : State} {a : Addr} (h : s.jumpTarget = some a) :
    followJumps (n + 1) s = followJumps n { s with pc := a } := by simp [followJumps, h]

/-- Following jumps looks at no counter. -/
theorem followJumps_counter (k n : Nat) (s : State) :
    followJumps n { s with k := k } = (followJumps n s).map fun u => { u with k := k } := by
  induction n generalizing s with
  | zero => rfl
  | succ n ih =>
    have hu : ({ s with k := k } : State).jumpTarget = s.jumpTarget := jumpTarget_congr rfl rfl rfl rfl
    simp only [followJumps, hu]
    cases s.jumpTarget with
    | none => rfl
    | some c => exact ih { s with pc := c }

/-- Following jumps changes only the pc. -/
theorem followJumps_eq {n : Nat} {s t : State} (h : followJumps n s = some t) : t = { s with pc := t.pc } := by
  induction n generalizing s with
  | zero => obtain rfl : s = t := by simpa [followJumps] using h
            rfl
  | succ n ih =>
    unfold followJumps at h
    split at h
    · cases h
    · have := ih h
      exact this

/-- The inversion lemma of the chain: from a state with `k` jumps behind it and room for `n` more, the chain follows some
`j ≤ n` taken jumps, which change only the pc and the counter, and then makes one micro-step that is no taken jump. -/
theorem chain_cases {n : Nat} {s : State} (h : s.k + n = s.chainBound) :
    ∃ j a, j ≤ n ∧ followJumps j s = some { s with pc := a } ∧
      chain n s = microStep { s with pc := a, k := s.k + j } ∧
      ∀ t, microStep { s with pc := a, k := s.k + j } = .next t → t.k = 0 := by
  induction n generalizing s with
  | zero =>
    refine ⟨0, s.pc, Nat.le_refl _, rfl, rfl, fun t ht => ?_⟩
    cases hj : s.jumpTarget with
    | none => exact microStep_of_no_target hj ht
    | some a =>
      have hk : s.k = s.chainBound := h
      have := (microStep_of_target hj).symm.trans ht
      obtain ⟨_, e⟩ | ⟨hne, _⟩ := takeJump_cases a s
      · rw [e] at this
        obtain rfl := Host.Outcome.next.inj this
        rfl
      · exact (hne hk).elim
  | succ n ih =>
    cases hj : s.jumpTarget with
    | none =>
      refine ⟨0, s.pc, Nat.zero_le _, rfl, ?_, fun t ht => microStep_of_no_target hj ht⟩
      show chain (n + 1) s = microStep s
      unfold chain
      cases hm : microStep s with
      | next t => simp [State.midChain, microStep_of_no_target hj hm]
      | fault r => rfl
      | refused r => rfl
    | some b =>
      have hk : s.k ≠ s.chainBound := by omega
      have hm : microStep s = .next { s with pc := b, k := s.k + 1 } := by
        rw [microStep_of_target hj, takeJump, if_neg hk]
      obtain ⟨j, a, hle, hf, hc, hz⟩ := ih (s := { s with pc := b, k := s.k + 1 }) (by simp only; omega)
      have hsum : s.k + 1 + j = s.k + (j + 1) := by omega
      simp only [hsum] at hc hz
      refine ⟨j + 1, a, by omega, ?_, ?_, hz⟩
      · rw [followJumps_succ hj]
        have := followJumps_counter s.k j { s with pc := b, k := s.k + 1 }
        simp only [hf] at this
        simpa using this
      · rw [chain, hm]
        simpa [State.midChain] using hc

/-- The inversion lemma of the step: a running machine follows `j` taken jumps, at most the chain bound, which change
only the pc, and then makes one micro-step that is no taken jump (40_execution_cycle.md R110). -/
theorem step_cases {s : State} (h : s.status = .running) :
    ∃ j a, j ≤ s.chainBound ∧ followJumps j { s with k := 0 } = some { s with pc := a, k := 0 } ∧
      step s = microStep { s with pc := a, k := j } ∧
      ∀ t, microStep { s with pc := a, k := j } = .next t → t.k = 0 := by
  obtain ⟨j, a, h1, h2, h3, h4⟩ := chain_cases (n := s.chainBound) (s := { s with k := 0 }) (by simp)
  simp only [Nat.zero_add] at h3 h4
  exact ⟨j, a, h1, h2, by rw [step, if_pos h]; exact h3, h4⟩

/-- No step is refused: a step of a running machine ends in one micro-step, which halts or executes an instruction. -/
theorem step_not_refused (s : State) (r : Refusal) : step s ≠ .refused r := by
  intro h
  by_cases hr : s.status = .running
  · obtain ⟨j, a, -, -, hs, -⟩ := step_cases hr
    rw [hs, microStep_eq] at h
    split at h
    · cases h
    · exact exec_not_refused _ _ r h
  · rw [step, if_neg hr] at h
    cases h

/-- A micro-step either halts or, in the code region, executes the word at the pc. -/
theorem microStep_cases {s t : State} (h : microStep s = .next t) :
    t = s.halt ∨ (s.pc.toNat < 30 ∧ exec (decode (s.cell s.pc.toNat)) s = .next t) := by
  rw [microStep_eq] at h
  split at h
  · exact .inl (Host.Outcome.next.inj h).symm
  · next hpc => exact .inr ⟨by simpa [Config.codeLimit] using hpc, h⟩

/-- A micro-step that stands in the middle of a chain took a jump below the bound. -/
theorem microStep_midChain {s t : State} (h : microStep s = .next t) (hk : t.k ≠ 0) :
    ∃ a, s.jumpTarget = some a ∧ s.k ≠ s.chainBound ∧ t = { s with pc := a, k := s.k + 1 } := by
  cases hj : s.jumpTarget with
  | none => exact (hk (microStep_of_no_target hj h)).elim
  | some a =>
    obtain rfl := Host.Outcome.next.inj ((microStep_of_target hj).symm.trans h)
    obtain ⟨_, e⟩ | ⟨hne, e⟩ := takeJump_cases a s
    · rw [e] at hk
      simp at hk
    · exact ⟨a, rfl, hne, e⟩

/-- The chain at its full length, unfolded once. -/
theorem chain_unfold {s : State} (hk : s.k = 0) : chain s.chainBound s =
    match microStep s with
    | .next t => if t.midChain then chain (s.chainBound - 1) t else .next t
    | .fault r => .fault r
    | .refused r => .refused r := by
  cases hc : s.chainBound with
  | zero =>
    rw [chain]
    cases hm : microStep s with
    | next t =>
      have : t.k = 0 := by
        by_contra hne
        obtain ⟨_, _, hb, _⟩ := microStep_midChain hm hne
        omega
      simp [State.midChain, this]
    | fault r => rfl
    | refused r => rfl
  | succ n => rw [chain]; rfl

/-- A step whose first micro-step takes no jump is that micro-step. -/
theorem step_of_microStep {s t : State} (hr : s.status = .running) (h : microStep { s with k := 0 } = .next t)
    (ht : t.k = 0) : step s = .next t := by
  have e := chain_unfold (s := { s with k := 0 }) rfl
  simp only at e
  rw [step, if_pos hr, e, h]
  simp [State.midChain, ht]

/-- What holds of every state and itself, and from every running state to where a last micro-step of its chain leads,
holds from every state to where its step leads. -/
theorem step_rel {P : State → State → Prop} (stopped : ∀ s, P s s)
    (last : ∀ s a j t, s.status = .running → microStep { s with pc := a, k := j } = .next t → t.k = 0 → P s t)
    {s t : State} (h : step s = .next t) : P s t := by
  by_cases hr : s.status = .running
  · obtain ⟨j, a, _, _, e, hk⟩ := step_cases hr
    rw [e] at h
    exact last s a j t hr h (hk t h)
  · rw [step, if_neg hr] at h
    obtain rfl := Host.Outcome.next.inj h
    exact stopped s

/-- A chain of `m + n` jumps is a chain of `m` and then one of `n`. -/
theorem followJumps_add (m n : Nat) (s : State) : followJumps (m + n) s = (followJumps m s).bind (followJumps n) := by
  induction m generalizing s with
  | zero => simp [followJumps]
  | succ m ih =>
    rw [Nat.add_right_comm]
    cases hj : s.jumpTarget with
    | none => simp [followJumps, hj]
    | some b =>
      rw [followJumps_succ hj, followJumps_succ hj]
      exact ih _

/-- The last jump of a chain. -/
theorem followJumps_last {n : Nat} {s v : State} (h : followJumps (n + 1) s = some v) :
    ∃ u a, followJumps n s = some u ∧ u.jumpTarget = some a ∧ v = { u with pc := a } := by
  rw [followJumps_add] at h
  cases hu : followJumps n s with
  | none => simp [hu] at h
  | some u =>
    rw [hu] at h
    cases hj : u.jumpTarget with
    | none => simp [followJumps, hj] at h
    | some a => exact ⟨u, a, rfl, hj, by simpa [followJumps, hj] using h.symm⟩

end Sys2Proof.Machine
end

