-- ==== Sys2Proof/Laws/Text.lean ====
section
/-! SUPPORT. Decimal text, what the parsers read, trimming, tokens, and the assembler's sorting and second pass. -/

namespace Sys2Proof.Machine

theorem digitChar_digit (d : Nat) (h : d < 10) :
    isDigit (Nat.digitChar d) = true ∧ (Nat.digitChar d).toNat - 48 = d := by
  revert d
  decide

/-- The decimal text of a number is non-empty, all digits, and spells the number. -/
theorem naturalText_spells (n : Nat) :
    naturalText n ≠ [] ∧ (naturalText n).all isDigit = true ∧ digitsValue 10 (naturalText n) = n := by
  unfold naturalText
  induction n using Nat.strong_induction_on with
  | _ n ih =>
    by_cases h : n < 10
    · rw [Nat.toDigits_of_lt_base h]
      have := digitChar_digit n h
      simp [digitsValue, this]
    · have split := Nat.toDigits_append_toDigits (b := 10) (n := n / 10) (d := n % 10) (by decide) (by omega) (by omega)
      rw [show 10 * (n / 10) + n % 10 = n by omega] at split
      rw [← split, Nat.toDigits_of_lt_base (show n % 10 < 10 by omega)]
      obtain ⟨_, hall, hval⟩ := ih (n / 10) (by omega)
      have last := digitChar_digit (n % 10) (by omega)
      refine ⟨by simp, by simp [hall, last], ?_⟩
      simp only [digitsValue, List.foldl_append, List.foldl_cons, List.foldl_nil] at hval ⊢
      rw [hval, last.2]
      omega

/-! ### What the parsers read -/

theorem digitChar_of_isDigit {c : Char} (h : isDigit c = true) :
    c.toNat - 48 < 10 ∧ Nat.digitChar (c.toNat - 48) = c := by
  have value : ∀ d, d < 10 → (Nat.digitChar d).toNat = d + 48 := by decide
  simp only [isDigit, Bool.and_eq_true, decide_eq_true_eq] at h
  have small : c.toNat - 48 < 10 := by omega
  refine ⟨small, Char.ext (UInt32.toNat.inj ?_)⟩
  change (Nat.digitChar (c.toNat - 48)).toNat = c.toNat
  rw [value _ small]
  omega

/-- The number that digit characters spell is Mathlib's, which has the least significant digit first. -/
theorem digitsValue_digitChar {digits : List Nat} (h : ∀ d ∈ digits, d < 10) :
    digitsValue 10 (digits.map Nat.digitChar) = Nat.ofDigits 10 digits.reverse := by
  induction digits using List.reverseRecOn with
  | nil => rfl
  | append_singleton digits d ih =>
    have last := (digitChar_digit d (h d (by simp))).2
    have front := ih fun e he => h e (by simp [he])
    simp only [digitsValue, List.map_append, List.foldl_append, List.map_cons, List.map_nil, List.foldl_cons,
      List.foldl_nil] at front ⊢
    rw [front, last, List.reverse_append, List.reverse_singleton, List.singleton_append, Nat.ofDigits_cons]
    omega

/-- `parseNatural` reads exactly the texts of one or more digits. -/
theorem parseNatural_eq_some {t : Text} {n : Nat} : parseNatural t = some n ↔ ∃ digits : List Nat, digits ≠ [] ∧
    (∀ d ∈ digits, d < 10) ∧ t = digits.map Nat.digitChar ∧ n = Nat.ofDigits 10 digits.reverse := by
  constructor
  · intro h
    unfold parseNatural at h
    split at h
    · next cond =>
      have digit := List.all_eq_true.mp cond.2
      have back : t = (t.map fun c => c.toNat - 48).map Nat.digitChar := by
        rw [List.map_map]
        conv_lhs => rw [← List.map_id t]
        exact List.map_congr_left fun c hc => (digitChar_of_isDigit (digit c hc)).2.symm
      have small : ∀ d ∈ t.map (fun c => c.toNat - 48), d < 10 := by
        intro d hd
        obtain ⟨c, hc, rfl⟩ := List.mem_map.mp hd
        exact (digitChar_of_isDigit (digit c hc)).1
      have value := digitsValue_digitChar small
      rw [← back, Option.some.inj h] at value
      exact ⟨_, by simpa using cond.1, small, back, value⟩
    · cases h
  · rintro ⟨digits, ne, small, rfl, rfl⟩
    rw [parseNatural, if_pos, digitsValue_digitChar small]
    refine ⟨by simpa using ne, List.all_eq_true.mpr fun c hc => ?_⟩
    obtain ⟨d, hd, rfl⟩ := List.mem_map.mp hc
    exact (digitChar_digit d (small d hd)).1

/-- `parseInteger` reads exactly the texts that spell an integer. -/
theorem parseInteger_eq_some {t : Text} {v : Int} : parseInteger t = some v ↔ spellsInteger t v := by
  unfold parseInteger
  constructor
  · split
    · intro h
      obtain ⟨n, hn, rfl⟩ := Option.map_eq_some_iff.mp h
      obtain ⟨digits, ne, small, rfl, rfl⟩ := parseNatural_eq_some.mp hn
      exact ⟨true, digits, ne, small, by simp, by simp⟩
    · intro h
      obtain ⟨n, hn, rfl⟩ := Option.map_eq_some_iff.mp h
      obtain ⟨digits, ne, small, rfl, rfl⟩ := parseNatural_eq_some.mp hn
      exact ⟨false, digits, ne, small, by simp, by simp⟩
  · rintro ⟨negative, digits, ne, small, rfl, rfl⟩
    have read := parseNatural_eq_some.mpr ⟨digits, ne, small, rfl, rfl⟩
    cases negative
    · obtain ⟨d, ds, rfl⟩ := List.exists_cons_of_ne_nil ne
      have sign : ∀ d, d < 10 → Nat.digitChar d ≠ '-' := by decide
      split
      · next e => exact (sign d (small d (by simp)) (List.cons.inj e).1).elim
      · exact congrArg (Option.map _) read
    · exact congrArg (Option.map _) read

/-- What trimming removes is white space at the two ends. -/
theorem trim_split (r : Text) : ∃ before after, r = before ++ trim r ++ after ∧ (∀ c ∈ before, isWhite c = true) ∧
    ∀ c ∈ after, isWhite c = true := by
  refine ⟨r.takeWhile isWhite, ((r.dropWhile isWhite).reverse.takeWhile isWhite).reverse, ?_, ?_, ?_⟩
  · unfold trim
    rw [List.append_assoc, ← List.reverse_append, List.takeWhile_append_dropWhile, List.reverse_reverse,
      List.takeWhile_append_dropWhile]
  · exact fun c hc => List.mem_takeWhile_imp hc
  · exact fun c hc => List.mem_takeWhile_imp (List.mem_reverse.mp hc)

/-- Trimming white space around a token gives the token. -/
theorem trim_token {before token after : Text} (hb : ∀ c ∈ before, isWhite c = true)
    (ha : ∀ c ∈ after, isWhite c = true) (ht : isToken token) : trim (before ++ token ++ after) = token := by
  have keep : ∀ t rest : Text, t ≠ [] → (∀ c ∈ t, isWhite c = false) →
      (t ++ rest).dropWhile isWhite = t ++ rest := by
    intro t rest ne dark
    obtain ⟨c, cs, rfl⟩ := List.exists_cons_of_ne_nil ne
    simp [dark c (by simp)]
  have front := keep token after ht.1 ht.2
  have back := keep token.reverse [] (by simpa using ht.1) (by simpa using ht.2)
  rw [List.append_nil] at back
  rw [trim, List.append_assoc, List.dropWhile_append_of_pos hb, front, List.reverse_append,
    List.dropWhile_append_of_pos (by simpa using ha), back, List.reverse_reverse]

/-! ### Tokens -/

theorem splitAtEach_ne_nil (p : Char → Bool) (t : Text) : splitAtEach p t ≠ [] := by
  cases t with
  | nil => simp [splitAtEach]
  | cons c t =>
    simp only [splitAtEach]
    split
    · simp
    · split <;> simp

/-- A separator in front adds an empty first piece. -/
theorem splitAtEach_separator {p : Char → Bool} {c : Char} (h : p c = true) (t : Text) :
    splitAtEach p (c :: t) = [] :: splitAtEach p t := by
  obtain ⟨piece, pieces, e⟩ := List.exists_cons_of_ne_nil (splitAtEach_ne_nil p t)
  simp [splitAtEach, e, h]

/-- Characters that do not separate, in front, lengthen the first piece. -/
theorem splitAtEach_append {p : Char → Bool} {front : Text} (h : ∀ c ∈ front, p c = false) {t piece : Text}
    {pieces : List Text} (e : splitAtEach p t = piece :: pieces) :
    splitAtEach p (front ++ t) = (front ++ piece) :: pieces := by
  induction front with
  | nil => exact e
  | cons c front ih =>
    have rest := ih fun d hd => h d (by simp [hd])
    simp [splitAtEach, rest, h c (by simp)]

/-- White space in front of a text adds no token. -/
theorem tokensOf_white {gap : Text} (h : ∀ c ∈ gap, isWhite c = true) (t : Text) :
    tokensOf (gap ++ t) = tokensOf t := by
  induction gap with
  | nil => rfl
  | cons c gap ih =>
    rw [← ih fun d hd => h d (by simp [hd])]
    simp [tokensOf, splitAtEach_separator (h c (by simp))]

/-- A token alone is its own token. -/
theorem tokensOf_token {token : Text} (h : isToken token) : tokensOf token = [token] := by
  have split := splitAtEach_append (t := []) h.2 rfl
  simp only [List.append_nil] at split
  simp [tokensOf, split, h.1]

/-- A token, a gap, and the tokens of the rest. -/
theorem tokensOf_token_gap {token gap : Text} (h : isToken token) (hg : isGap gap) (t : Text) :
    tokensOf (token ++ gap ++ t) = token :: tokensOf t := by
  obtain ⟨c, gap, rfl⟩ := List.exists_cons_of_ne_nil hg.1
  have split := splitAtEach_append h.2 (splitAtEach_separator (hg.2 c (by simp)) (gap ++ t))
  rw [← tokensOf_white (gap := gap) (fun d hd => hg.2 d (by simp [hd])) t, List.append_assoc, List.cons_append]
  simp only [tokensOf, List.append_nil] at split ⊢
  simp [split, h.1]

/-! ### The report and the second pass -/

theorem mem_insertByLine {e x : AsmError} {errors : List AsmError} :
    x ∈ insertByLine e errors ↔ x = e ∨ x ∈ errors := by
  induction errors with
  | nil => simp [insertByLine]
  | cons d ds ih =>
    simp only [insertByLine]
    split
    · simp
    · simp [ih]
      tauto

/-- Sorting neither adds nor drops an error. -/
theorem mem_sortByLine {x : AsmError} {errors : List AsmError} : x ∈ sortByLine errors ↔ x ∈ errors := by
  have gather : ∀ es sorted : List AsmError,
      x ∈ es.foldl (fun sorted e => insertByLine e sorted) sorted ↔ x ∈ sorted ∨ x ∈ es := by
    intro es
    induction es with
    | nil => simp
    | cons e es ih =>
      intro sorted
      simp [ih, mem_insertByLine]
      tauto
  simpa [sortByLine] using gather errors []

/-- Pass 2 gives at most one word a line. -/
theorem secondPass_length (table : LabelTable) (lines : List RealLine) :
    (secondPass table lines).1.length ≤ lines.length := by
  induction lines with
  | nil => simp [secondPass]
  | cons l lines ih =>
    simp only [secondPass]
    split <;> simp <;> omega

end Sys2Proof.Machine
end

