-- ==== Sys2Proof/Laws/Transactions.lean ====
section
/-! SUPPORT. The host's transactions, each inverted once. -/

namespace Sys2Proof.Machine

/-- What `Reset(image)` can do when it answers a core (10_state.md R41). -/
theorem boot_cases {image : List Byte} {inputs : List Text} {e : SourceEnd} {b : Nat} {s : State}
    (h : State.boot image inputs e b = .next s) : image.length = 32 ∧
      s = State.mk (Memory.ofImage 0 image) 0#8 Config.resetPc true false .running [] 0 inputs e b := by
  unfold State.boot at h
  split at h
  · next hl => exact ⟨by simpa [imageWellFormed, Config.memWords] using hl, (Host.Outcome.next.inj h).symm⟩
  · cases h

/-- An image of 32 words is never refused. -/
theorem boot_of_length {image : List Byte} (h : image.length = 32) (inputs : List Text) (e : SourceEnd) (b : Nat) :
    State.boot image inputs e b =
      .next (State.mk (Memory.ofImage 0 image) 0#8 Config.resetPc true false .running [] 0 inputs e b) :=
  if_pos (by simp [imageWellFormed, Config.memWords, h])

/-- A run on a stopped machine returns it. -/
theorem run_stopped {s : State} (h : s.status ≠ .running) (fuel : Nat) : run fuel s = .ended s := by
  cases fuel <;> simp [run, h]

/-- A run whose first step answers a next state goes on from there. -/
theorem run_succ {s t : State} (hr : s.status = .running) (h : step s = .next t) (fuel : Nat) :
    run (fuel + 1) s = run fuel t := by simp [run, hr, h]

/-- Steps from a state whose step answers a next state go on from there. -/
theorem coreRun_succ {s t : State} (h : step s = .next t) (n : Nat) :
    Host.Core.run Sys2Proof.core (n + 1) s = Host.Core.run Sys2Proof.core n t := by
  have h : Sys2Proof.core.step s = .next t := h
  simp [Host.Core.run, h]

/-- Any number of steps leave a stopped machine as it is (40_execution_cycle.md R119). -/
theorem coreRun_stopped {s : State} (h : s.status ≠ .running) (n : Nat) :
    Host.Core.run Sys2Proof.core n s = .next s := by
  induction n with
  | zero => rfl
  | succ n ih => rw [coreRun_succ (if_neg h), ih]

/-- A run that waits in its first step is blocked there, and no step leads on (93_implementation_defined.md I6). -/
theorem run_waiting {s : State} {r : Fault} (hr : s.status = .running) (h : step s = .fault r) (n : Nat) :
    run (n + 1) s = .blocked s ∧ Host.Core.run Sys2Proof.core (n + 1) s = .fault r := by
  refine ⟨by simp [run, hr, h], ?_⟩
  have h : Sys2Proof.core.step s = .fault r := h
  simp [Host.Core.run, h]

end Sys2Proof.Machine
end

