-- ==== Sys2Proof/Tests/Slice0.lean ====
section
/-! SUPPORT. The model's own tests: words decoded from the spec's encodings, the checks of WellFormed, one or two steps of
95_test_vectors.md for each instruction, and a witness for every statement that has hypotheses. -/

namespace Sys2Proof.Tests

open Sys2Proof.Machine

/-! ### Words, from 95_test_vectors.md 2.1 -/

theorem test_decode_halt : decode 0b00000000#8 = .halt 0#5 ∧ decode 0b00011111#8 = .halt 31#5 := by decide
theorem test_decode_jump : decode 0b00100000#8 = .jump 0#5 ∧ decode 0b00111111#8 = .jump 31#5 := by decide
theorem test_decode_jzer : decode 0b01000000#8 = .jzer 0#5 ∧ decode 0b01011110#8 = .jzer 30#5 := by decide
theorem test_decode_jpos : decode 0b01100000#8 = .jpos 0#5 ∧ decode 0b01111111#8 = .jpos 31#5 := by decide
theorem test_decode_load : decode 0b10000000#8 = .load 0#5 ∧ decode 0b10011110#8 = .load 30#5 := by decide
theorem test_decode_stor : decode 0b10100000#8 = .stor 0#5 ∧ decode 0b10111111#8 = .stor 31#5 := by decide
theorem test_decode_add : decode 0b11000000#8 = .add 0#5 ∧ decode 0b11000101#8 = .add 5#5 := by decide
theorem test_decode_sub : decode 0b11100000#8 = .sub 0#5 ∧ decode 0b11111111#8 = .sub 31#5 := by decide
theorem test_decodeTableWord : decodeTableWord 8 0xC5 = some (.add 5#5) ∧ decodeBytes [] = .error .noWord :=
  ⟨by decide, rfl⟩

/-! ### WellFormed: an ill-formed term for each check. No term of Instr is ill-formed (R77). -/

theorem test_image_length : imageWellFormed (List.replicate 31 0#8) = false ∧
    imageWellFormed (List.replicate 33 0#8) = false ∧ imageWellFormed (List.replicate 32 0#8) = true := by decide
theorem test_operand_range : operandWellFormed (-1) = false ∧ operandWellFormed 32 = false ∧
    operandWellFormed 0 = true ∧ operandWellFormed 31 = true := by decide
theorem test_instr_wellFormed : (Instr.halt 31#5).wellFormed = true ∧ (Instr.sub 0#5).wellFormed = true := by decide
theorem test_memory_wf : Memory.wf [(3, 1#8), (3, 2#8)] = false ∧ Memory.wf [(3, 0#8)] = false ∧
    Memory.wf [(32, 1#8)] = false ∧ Memory.wf [(0, 1#8), (31, 2#8)] = true := by decide

/-! ### Small states -/

/-- A running machine at a pc with an accumulator, its flags, and some cells. -/
def small (pc : Addr) (acc : Int) (cells : List (Nat × Int)) : State :=
  { State.reset with
    mem := cells.foldl (fun m c => Memory.write m c.1 (cellOf c.2)) []
    pc := pc
    acc := cellOf acc
    z := acc == 0
    p := 0 < acc }

/-- The state after one step; the same state where the step answers none. -/
def after (s : State) : State :=
  match step s with
  | .next t => t
  | .fault _ => s
  | .refused _ => s

/-- The state after one instruction. -/
def ran (i : Instr) (s : State) : State :=
  match exec i s with
  | .next t => t
  | .fault _ => s
  | .refused _ => s

/-! ### Steps, from 95_test_vectors.md 2.2 to 2.5 -/

theorem test_halt_V_H2 : (after (small 7#5 5 [(7, 17)])).status = .halted ∧ (after (small 7#5 5 [(7, 17)])).pc = 7#5 := by
  decide
theorem test_portRegion_V_H3 : (after (small 30#5 9 [(30, -65)])).status = .halted ∧
    (after (small 30#5 9 [(30, -65)])).transcript = [] := by decide
theorem test_stor_V_H4 : (after (small 29#5 4 [(29, -96)])).cell 0 = 4#8 ∧ (after (small 29#5 4 [(29, -96)])).pc = 30#5 := by
  decide
theorem test_jump_V_J1 : (after (small 0#5 0 [(0, 34), (2, -64)])).acc = 34#8 ∧
    (after (small 0#5 0 [(0, 34), (2, -64)])).pc = 3#5 := by decide
theorem test_jump_V_J4 :
    (after { small 0#5 0 [(0, 33), (1, 32)] with chainBound := 2 }).status =
        .faulted .jumpChainExceeded 0#5 (some 33#8) ∧
      (after { small 0#5 0 [(0, 33), (1, 32)] with chainBound := 3 }).status =
        .faulted .jumpChainExceeded 1#5 (some 32#8) := by decide
theorem test_jzer_V_Z1 : (after (small 0#5 0 [(0, 66)])).status = .halted ∧ (after (small 0#5 0 [(0, 66)])).pc = 2#5 := by
  decide
theorem test_jzer_V_Z2 : (after (small 5#5 5 [(5, 76)])).pc = 6#5 ∧ (after (small 5#5 5 [(5, 76)])).status = .running := by
  decide
theorem test_jpos_V_P1 : (after (small 3#5 2 [(3, 97), (1, -65)])).transcript = [.out 2#8] ∧
    (after (small 3#5 2 [(3, 97), (1, -65)])).pc = 2#5 := by decide
theorem test_jpos_V_P3 : (after (small 3#5 (-128) [(3, 97)])).pc = 4#5 := by decide
theorem test_load_V_L1 : (after (small 0#5 9 [(0, -121), (7, -5)])).acc = cellOf (-5) ∧
    (after (small 0#5 9 [(0, -121), (7, -5)])).p = false := by decide
theorem test_load_V_L6 :
    (after { small 0#5 0 [(0, -98)] with inputs := [" -5 ".toList] }).acc = cellOf (-5) ∧
      (after { small 0#5 0 [(0, -98)] with inputs := [" -5 ".toList] }).transcript =
        [.prompt, .echo " -5 ".toList] := by decide
theorem test_stor_V_S1 : (after (small 0#5 (-91) [(0, -65)])).transcript = [.out (cellOf (-91))] ∧
    renderWith [] (after (small 0#5 (-91) [(0, -65)])).transcript = "-91\n".toList := by decide
theorem test_add_V_A1_A3 : (after (small 0#5 127 [(0, -59), (5, 1)])).acc = cellOf (-128) ∧
    (after (small 0#5 (-128) [(0, -59), (5, -128)])).z = true := by decide
theorem test_sub_V_B1_B2 : (after (small 0#5 0 [(0, -27), (5, -128)])).acc = cellOf (-128) ∧
    (after (small 0#5 (-128) [(0, -27), (5, 1)])).p = true := by decide
theorem test_withFetchWord : (State.reset.withFetchWord 8 0xC0).cell 0 = 0xC0#8 ∧
    (after (State.reset.withFetchWord 8 0xC0)).acc = 0xC0#8 := by decide

/-! ### Text and assembler, from 95_test_vectors.md 1 and 2.6 -/

theorem test_parseInput : parseInput "7".toList = some 7#8 ∧ parseInput "200".toList = some (cellOf (-56)) ∧
    parseInput "x".toList = none ∧ parseInput "+7".toList = none ∧ parseInput "-".toList = none := by decide
theorem test_trunc8_W1 : trunc8 128 = -128 ∧ trunc8 (-129) = 127 ∧ trunc8 (-256) = 0 ∧ trunc8 197 = -59 := by decide
theorem test_encodeCode_words : encodeCode [] "ADD 5".toList = .ok 0xC5#8 ∧ encodeCode [] "store 31".toList = .ok 0xBF#8 ∧
    encodeCode [] "00000101".toList = .ok 5#8 ∧ encodeCode [] "add -1".toList = .ok 0xBF#8 := ⟨rfl, rfl, rfl, rfl⟩
theorem test_encodeCode_errors : encodeCode [] "halt 5".toList = .error .unknownMnemonic ∧
    encodeCode [] "jump a b".toList = .error .wrongTokenCount ∧ encodeCode [] "+5".toList = .error .unrecognizedToken :=
  ⟨rfl, rfl, rfl⟩
theorem test_assemble_W5 : (assemble "load 30\nfirst:\nsecond: # two\nadd 30".toList).labels =
    [("first".toList, 1), ("second".toList, 1)] := by decide
theorem test_assemble_W7 : (assemble "halt\nend1:\nend2:".toList).result =
    .report [{ line := 2, kind := .danglingLabel }, { line := 3, kind := .danglingLabel }] := by decide
theorem test_assemble_V_X21 : (assemble "a: halt\na: add 5".toList).result =
    .report [{ line := 2, kind := .duplicateLabel }] := by decide
theorem test_reportText_W6 : reportText [{ line := 2, kind := .unrecognizedToken }] =
    "Line 2: unrecognized token".toList := by decide

/-! ### Witnesses: a state and operands that meet the hypotheses of each statement -/

theorem witness_TruncationIsIdempotentAndWraps :
    ((-128 : Int) ≤ -128 ∧ (-128 : Int) ≤ 127) ∧ ((-128 : Int) ≤ 127 ∧ (127 : Int) ≤ 127) := by decide
theorem witness_DecodeInvertsEncode : (Instr.jpos 31#5).wellFormed = true ∧ (Instr.jpos 31#5).opcode ≤ 3 ∧
    (Instr.load 0#5).wellFormed = true ∧ 4 ≤ (Instr.load 0#5).opcode := by decide
theorem witness_EveryWordIsOneInstruction : encode (.halt 31#5) = 31#8 ∧ (small 0#5 0 [(0, 31)]).status = .running ∧
    u8 ((small 0#5 0 [(0, 31)]).cell 0) ≤ 31 ∧ u8 ((small 0#5 0 []).cell 0) ≤ 31 := by decide
theorem witness_StepRunsTheDecodedInstruction : (small 29#5 4 [(29, -96)]).status = .running ∧
    (small 29#5 4 [(29, -96)]).pc.toNat < 30 ∧ fetch (small 29#5 4 [(29, -96)]) = some 0xA0#8 ∧
    decode 0xA0#8 = .stor 0#5 ∧ (Instr.stor 0#5).wellFormed = true := by decide
theorem witness_StoppedMachineStaysStopped : { State.reset with status := .halted }.status ≠ .running ∧
    { State.reset with status := .faulted .inputInvalid 6#5 (some 0x9E#8) }.status =
      .faulted .inputInvalid 6#5 (some 0x9E#8) := by decide
theorem witness_HaltTestComesBeforeExecution : (small 0#5 9 []).status = .running ∧
    opcodeField ((small 0#5 9 []).cell 0) = 0#3 ∧ (small 30#5 9 [(30, -65)]).status = .running ∧
    30 ≤ (small 30#5 9 [(30, -65)]).pc.toNat := by decide
theorem witness_PortRegion_at : (small 31#5 0 [(31, 32)]).status = .running ∧ 30 ≤ (small 31#5 0 [(31, 32)]).pc.toNat := by
  decide
theorem witness_PortRegion_fall : (small 29#5 4 [(29, -96)]).jumpTarget = none ∧ (small 29#5 4 [(29, -96)]).pc.toNat = 29 ∧
    ∃ t, microStep (small 29#5 4 [(29, -96)]) = .next t ∧ step (small 29#5 4 [(29, -96)]) = .next t ∧
      30 ≤ t.pc.toNat ∧ t.status = .running := ⟨by decide, by decide, _, rfl, rfl, by decide, by decide⟩
theorem witness_PortRegion_jump : (small 4#5 0 [(4, 63)]).status = .running ∧
    (small 4#5 0 [(4, 63)]).jumpTarget = some 31#5 ∧ 30 ≤ (31#5 : Addr).toNat ∧ 1 ≤ (small 4#5 0 [(4, 63)]).chainBound ∧
    ∃ t, microStep (small 4#5 0 [(4, 63)]) = .next t ∧ 30 ≤ t.pc.toNat :=
  ⟨by decide, by decide, by decide, by decide, _, rfl, by decide⟩
theorem witness_PortRegion_chain : ∃ u, followJumps 1 (small 0#5 0 [(0, 33), (1, 63)]) = some u ∧
    u.jumpTarget = some 31#5 ∧ 1 < (small 0#5 0 [(0, 33), (1, 63)]).chainBound ∧
    (after (small 0#5 0 [(0, 33), (1, 63)])).pc = 31#5 := ⟨_, rfl, by decide, by decide, by decide⟩
theorem witness_PcAdvances_next : ∃ t, microStep (small 29#5 4 [(29, -96)]) = .next t ∧ t.status = .running ∧
    (small 29#5 4 [(29, -96)]).jumpTarget = none := ⟨_, rfl, by decide, by decide⟩
theorem witness_PcAdvances_taken : ∃ t, microStep (small 4#5 0 [(4, 62)]) = .next t ∧ t.status = .running ∧
    (small 4#5 0 [(4, 62)]).jumpTarget = some 30#5 := ⟨_, rfl, by decide, by decide⟩
theorem witness_PcAdvances_stopped : ∃ t, microStep (small 4#5 0 [(4, -98)]) = .next t ∧ t.status ≠ .running :=
  ⟨_, rfl, by decide⟩
theorem witness_Trampoline : (small 4#5 0 [(4, 62)]).k = 0 ∧
    ∃ t, microStep (small 4#5 0 [(4, 62)]) = .next t ∧ t.k ≠ 0 := ⟨rfl, _, rfl, by decide⟩
theorem witness_TakenJumpCompletes : (Instr.jump 31#5 = .jump 31#5 ∧ (small 0#5 0 []).k ≠ (small 0#5 0 []).chainBound) ∧
    (small 0#5 0 []).z = true ∧ (small 0#5 1 []).p = true ∧
    { small 0#5 0 [] with k := 29 }.k ≠ { small 0#5 0 [] with k := 29 }.chainBound := by decide
theorem witness_UntakenJumpFallsThrough : (small 0#5 1 []).z = false ∧ (small 0#5 0 []).p = false := by decide
theorem witness_JumpAtTheBoundRaises : { small 0#5 0 [] with k := 30 }.k = { small 0#5 0 [] with k := 30 }.chainBound ∧
    { small 0#5 0 [] with k := 30 }.z = true ∧ { small 0#5 1 [] with k := 30 }.p = true ∧
    { small 0#5 0 [] with chainBound := 0 }.k = { small 0#5 0 [] with chainBound := 0 }.chainBound := by decide
theorem witness_LoadOfACellCompletes : (29#5 : Addr) ≠ 30#5 ∧ (31#5 : Addr) ≠ 30#5 := by decide
theorem witness_LoadOfTheInputPortCompletes :
    { small 0#5 0 [] with inputs := ["7".toList] }.inputs = "7".toList :: [] ∧ parseInput "7".toList = some 7#8 := by decide
theorem witness_LoadWithNoInputRaisesInputExhausted : State.reset.inputs = [] ∧ State.reset.inputEnd = .exhausted := by
  decide
theorem witness_LoadOfBadTextRaisesInputInvalid :
    { small 0#5 0 [] with inputs := ["x".toList] }.inputs = "x".toList :: [] ∧ parseInput "x".toList = none := by decide
theorem witness_OnlyAnUnansweredInputLoadWaits :
    exec (.load 30#5) { State.reset with inputEnd := .silent } = .fault .waitingForInput := rfl
theorem witness_StoreToACellCompletes : (30#5 : Addr) ≠ 31#5 ∧ (0#5 : Addr) ≠ 31#5 := by decide
theorem witness_Arithmetic : ∃ t u, exec (.add 5#5) (small 0#5 127 [(5, 1)]) = .next t ∧
    exec (.sub 5#5) (small 0#5 127 [(5, 1)]) = .next u := ⟨_, _, rfl, rfl⟩
theorem witness_Overflow_sums : (s8 (small 0#5 127 [(5, 1)]).acc + s8 ((small 0#5 127 [(5, 1)]).cell 5) = 128) ∧
    (s8 (small 0#5 (-128) [(5, -1)]).acc + s8 ((small 0#5 (-128) [(5, -1)]).cell 5) = -129) ∧
    (s8 (small 0#5 127 [(5, -128)]).acc + s8 ((small 0#5 127 [(5, -128)]).cell 5) = -1) ∧
    (s8 (small 0#5 (-1) [(5, 0)]).acc + s8 ((small 0#5 (-1) [(5, 0)]).cell 5) = -1) := by decide
theorem witness_Overflow_differences : (s8 (small 0#5 0 [(5, -128)]).acc - s8 ((small 0#5 0 [(5, -128)]).cell 5) = 128) ∧
    (s8 (small 0#5 (-128) [(5, 1)]).acc - s8 ((small 0#5 (-128) [(5, 1)]).cell 5) = -129) ∧
    (s8 (small 0#5 3 [(5, 5)]).acc - s8 ((small 0#5 3 [(5, 5)]).cell 5) = -2) := by decide
theorem witness_StoreIsSeenByTheNextFetch : (29#5 : Addr).toNat < 30 ∧
    (ran (.stor 29#5) (small 28#5 (-65) [])).pc = 29#5 := by decide
theorem witness_Flags_written : ∃ t, exec (.sub 5#5) (small 0#5 0 []) = .next t ∧ t.status = .running ∧
    (Instr.sub 5#5).opcode = 7 := ⟨_, rfl, by decide, by decide⟩
theorem witness_Flags_kept : ∃ t, exec (.stor 5#5) (small 0#5 0 []) = .next t ∧
    ¬ ((Instr.stor 5#5).opcode = 4 ∨ (Instr.stor 5#5).opcode = 6 ∨ (Instr.stor 5#5).opcode = 7) ∧
    (Instr.stor 5#5).opcode ≠ 2 ∧ (Instr.stor 5#5).opcode ≠ 3 := ⟨_, rfl, by decide, by decide, by decide⟩
theorem witness_boot : (List.replicate 32 0#8).length = 32 ∧ (List.replicate 31 0#8).length ≠ 32 ∧
    ∃ s, State.boot (List.replicate 32 0#8) [] .exhausted 0 = .next s ∧ s.z = true ∧ s.p = false ∧
      s.k = s.chainBound ∧ Reachable s := ⟨by decide, by decide, _, rfl, rfl, rfl, rfl,
        .boot (image := List.replicate 32 0#8) (inputs := []) (inputEnd := .exhausted) (chainBound := 0) rfl⟩
theorem witness_Events : ∃ t u v, exec (.stor 31#5) (small 0#5 4 []) = .next t ∧ t.transcript = [.out 4#8] ∧
    exec (.load 30#5) (small 0#5 4 []) = .next u ∧ u.transcript = [.prompt] ∧ step (small 0#5 4 [(0, -65)]) = .next v :=
  ⟨_, _, _, rfl, by decide, rfl, by decide, rfl⟩
theorem witness_MemoryChange : ∃ t u, exec (.stor 29#5) (small 0#5 4 []) = .next t ∧ t.cell 29 ≠ (small 0#5 4 []).cell 29 ∧
    exec (.load 30#5) { small 0#5 4 [] with inputs := ["7".toList] } = .next u ∧ u.cell 30 ≠ (small 0#5 4 []).cell 30 :=
  ⟨_, _, rfl, by decide, rfl, by decide⟩
theorem witness_FlagsFollow : (small 0#5 (-3) [(0, -59)]).flagsAgree ∧
    ∃ t u, step (small 0#5 (-3) [(0, -59)]) = .next t ∧
      exec (.load 5#5) (small 0#5 (-3) []) = .next u ∧ u.acc ≠ (small 0#5 (-3) []).acc :=
  ⟨by decide, _, _, rfl, rfl, by decide⟩

/-- The image whose first word jumps to 30 halts there; the one that stores at 29 gets to 30 running. -/
def imageTo30 : List Byte := 61#8 :: List.replicate 28 0#8 ++ [0xA0#8, 0#8, 0#8]

theorem witness_RunningPcIsAtMost30 : ∃ s t, Reachable s ∧ step s = .next t ∧ Reachable t ∧ t.status = .running ∧
    t.pc.toNat = 30 := by
  refine ⟨_, _, .boot (image := imageTo30) (inputs := []) (inputEnd := .exhausted) (chainBound := 1) rfl, rfl,
    .step (.boot (image := imageTo30) (inputs := []) (inputEnd := .exhausted) (chainBound := 1) rfl) rfl, ?_, ?_⟩ <;> decide
theorem witness_StepKeepsTheInvariant : (small 29#5 4 [(29, -96)]).consistent ∧
    ∃ t, step (small 29#5 4 [(29, -96)]) = .next t := ⟨by decide, _, rfl⟩
theorem witness_FlagsAtReset : State.reset.z = true ∧ State.reset.p = false ∧ State.reset.k ≠ State.reset.chainBound ∧
    ∃ t, exec (.stor 5#5) State.reset = .next t := ⟨by decide, by decide, by decide, _, rfl⟩
theorem witness_InputSource : ∃ t, step (small 0#5 4 [(0, -65)]) = .next t ∧
    Event.prompt ∉ t.transcript.drop (small 0#5 4 [(0, -65)]).transcript.length := ⟨_, rfl, by decide⟩
theorem witness_ExecutionErrors_input : ∃ t, step (small 6#5 3 [(6, -98)]) = .next t ∧
    t.status = .faulted .inputExhausted 6#5 (some 0x9E#8) := ⟨_, rfl, by decide⟩
theorem witness_ExecutionErrors_chain : ∃ t, step { small 0#5 0 [(0, 64)] with chainBound := 1 } = .next t ∧
    t.status = .faulted .jumpChainExceeded 0#5 (some 64#8) := ⟨_, rfl, by decide⟩
theorem witness_ChainExceeded : (small 0#5 0 [(0, 32)]).status = .running ∧ 30 ≤ (small 0#5 0 [(0, 32)]).chainBound ∧
    (after (small 0#5 0 [(0, 32)])).status = .faulted .jumpChainExceeded 0#5 (some 32#8) := by decide
theorem witness_FiniteChains : ∃ t, followJumps 2 (small 0#5 0 [(0, 33), (1, 62)]) = some t ∧ t.jumpTarget = none ∧
    ∃ u v, followJumps 0 (small 0#5 0 [(0, 33), (1, 62)]) = some u ∧ followJumps 1 (small 0#5 0 [(0, 33), (1, 62)]) = some v :=
  ⟨_, rfl, by decide, _, _, rfl, rfl⟩
theorem witness_RunIsRepeatedStep : ∃ t, run 1 State.reset = .ended t ∧ Host.Core.run Sys2Proof.core 1 State.reset = .next t :=
  ⟨_, rfl, rfl⟩
theorem witness_RunIsRepeatedStep_unfinished : run 0 State.reset = .unfinished State.reset ∧
    ∃ t, run 1 (small 0#5 4 [(0, -65)]) = .unfinished t ∧
      Host.Core.run Sys2Proof.core 1 (small 0#5 4 [(0, -65)]) = .next t := ⟨rfl, _, rfl, rfl⟩
theorem witness_RunIsRepeatedStep_blocked :
    let s := { small 0#5 0 [(0, -98)] with inputEnd := .silent }
    run 1 s = .blocked s ∧ Host.Core.run Sys2Proof.core 0 s = .next s ∧ step s = .fault .waitingForInput ∧
      run 0 s = .unfinished s := ⟨rfl, rfl, rfl, rfl⟩
theorem witness_PackedOperands : (7 : Nat) < 8 ∧ operandWellFormed 31 = true ∧ operandWellFormed 0 = true := by decide
theorem witness_Sentinels : smallLetters "HaLt".toList = "halt".toList ∧ smallLetters "READ".toList = "read".toList ∧
    smallLetters "write".toList = "write".toList ∧ smallLetters "add".toList ≠ "halt".toList ∧
    smallLetters "add".toList ≠ "read".toList ∧ smallLetters "add".toList ≠ "write".toList := by decide
theorem witness_ParseInput : " -05".toList = " ".toList ++ "-05".toList ++ [] ∧ isWhite ' ' = true ∧
    spellsInteger "-05".toList (-5) := ⟨rfl, rfl, true, [0, 5], by decide, by decide, rfl, rfl⟩
theorem witness_plainDecimal : plainDecimal "-128".toList (-128) ∧ plainDecimal "0".toList 0 :=
  ⟨⟨[1, 2, 8], by decide, by decide, by decide, rfl, rfl⟩, [0], by decide, by decide, by decide, rfl, rfl⟩
theorem witness_Resolve_byte : spellsByte "10000000".toList 128 :=
  ⟨[true, false, false, false, false, false, false, false], rfl, rfl, rfl⟩
theorem not_spellsByte {t : Text} (h : t.length ≠ 8) : ¬ ∃ v, spellsByte t v := by
  rintro ⟨_, bits, len, rfl, _⟩
  simp [len] at h
theorem witness_Resolve_decimal : (¬ ∃ v, spellsByte "300".toList v) ∧ spellsInteger "300".toList 300 :=
  ⟨not_spellsByte (by decide), false, [3, 0, 0], by decide, by decide, rfl, rfl⟩
theorem witness_Resolve_label : (¬ ∃ v, spellsByte "x".toList v) ∧ (¬ ∃ v, spellsInteger "x".toList v) ∧
    resolve [("x".toList, 3)] "x".toList = some 3 ∧ resolve [] "x".toList = none := by
  refine ⟨not_spellsByte (by decide), ?_, rfl, rfl⟩
  rintro ⟨v, negative, digits, ne, small, text, -⟩
  obtain ⟨d, ds, rfl⟩ := List.exists_cons_of_ne_nil ne
  have other : ∀ d, d < 10 → 'x' ≠ Nat.digitChar d := by decide
  cases negative
  · exact other d (small d (by simp)) (List.cons.inj text).1
  · exact absurd (List.cons.inj text).1 (by decide)
theorem token_of_all {t : Text} (ne : t ≠ []) (h : t.all (fun c => !isWhite c) = true) : isToken t :=
  ⟨ne, fun c hc => by simpa using List.all_eq_true.mp h c hc⟩
theorem gap_of_all {t : Text} (ne : t ≠ []) (h : t.all isWhite = true) : isGap t := ⟨ne, List.all_eq_true.mp h⟩
theorem witness_CodeParts : isToken "ReAd".toList ∧ isGap [' ', '\t'] ∧ isToken "7".toList :=
  ⟨token_of_all (by decide) rfl, gap_of_all (by decide) rfl, token_of_all (by decide) rfl⟩
theorem witness_CodeParts_one : smallLetters "ReAd".toList = "read".toList ∧ ("read", (-98 : Int)) ∈ sentinelTable ∧
    (∀ entry ∈ sentinelTable, smallLetters "7".toList ≠ entry.1.toList ∧ smallLetters "+7".toList ≠ entry.1.toList) ∧
    resolve [] "7".toList = some 7 ∧ resolve [] "+7".toList = none ∧ (tokensOf []).length = 0 :=
  ⟨by decide, by decide, by decide, rfl, rfl, rfl⟩
theorem witness_MnemonicLines : isToken "STORE".toList ∧ isGap [' '] ∧ isToken "31".toList :=
  ⟨token_of_all (by decide) rfl, gap_of_all (by decide) rfl, token_of_all (by decide) rfl⟩
theorem witness_MnemonicLines_table : ("store", 5) ∈ mnemonicTable ∧ smallLetters "STORE".toList = "store".toList ∧
    resolve [] "31".toList = some 31 ∧ operandWellFormed 31 = true ∧ resolve [] "x".toList = none ∧
    ∀ entry ∈ mnemonicTable, smallLetters "halt".toList ≠ entry.1.toList :=
  ⟨by decide, by decide, rfl, by decide, rfl, by decide⟩
theorem witness_DanglingLabels : (firstPass "halt\nend1:".toList).pending ≠ [] := by decide

end Sys2Proof.Tests
end

section
/-! What the instructions do to the flags and what the flags do to the instructions (10_state.md R26). -/

namespace Sys2Proof.Machine

/-! ### Loading from the input port, one equation per answer of the host (42_load_store.md R141) -/

theorem exec_load_port_waiting {s : State} (hi : s.inputs = []) (he : s.inputEnd = .silent) :
    exec (.load Config.inputPort) s = .fault .waitingForInput := by
  simp [exec, execLoad, readInputPort, hi, he]

theorem exec_load_port_exhausted {s : State} (hi : s.inputs = []) (he : s.inputEnd = .exhausted) :
    exec (.load Config.inputPort) s = .next ((s.emit .prompt).raise .inputExhausted) := by
  simp [exec, execLoad, readInputPort, hi, he]

theorem exec_load_port_invalid {s : State} {r : Text} {rest : List Text} (hi : s.inputs = r :: rest)
    (hv : parseInput r = none) :
    exec (.load Config.inputPort) s = .next ({ s.emit .prompt with inputs := rest }.raise .inputInvalid) := by
  simp [exec, execLoad, readInputPort, hi, hv]

theorem exec_load_port_stored {s : State} {r : Text} {rest : List Text} {v : Byte} (hi : s.inputs = r :: rest)
    (hv : parseInput r = some v) :
    exec (.load Config.inputPort) s = .next ((inputStored s r rest v).writeAcc v).advance := by
  simp [exec, execLoad, readInputPort, hi, hv, inputStored, State.emit, Config.inputPort]

/-! ### The writers of the flags -/

/-- The instructions that call `SetFlags`: `load`, `add` and `sub`. -/
def SetsFlags (i : Instr) : Prop := i.opcode = 4 ∨ i.opcode = 6 ∨ i.opcode = 7

/-- Writing the accumulator sets the flags from it. -/
theorem flagsOfAcc_writeAcc_advance (v : Byte) (s : State) : flagsOfAcc (s.writeAcc v).advance :=
  ⟨zeroFlag_eq v, positiveFlag_eq v⟩

theorem not_setsFlags_of_jump {i : Instr} {a : Addr} (h : i = .jump a ∨ i = .jzer a ∨ i = .jpos a) :
    ¬ SetsFlags i := by
  obtain rfl | rfl | rfl := h <;> simp [SetsFlags, Instr.opcode]

/-- How an instruction that answers a next state ends, as far as the flags go: the flags are those of the accumulator
it wrote, or it raised, or it is no writer; only in the first case do the flags change. -/
theorem exec_flags_cases {i : Instr} {s t : State} (h : exec i s = .next t) :
    (SetsFlags i ∧ flagsOfAcc t) ∨
      ((¬ SetsFlags i ∨ t.status ≠ .running) ∧ t.z = s.z ∧ t.p = s.p) := by
  cases exec_next h with
  | loaded => exact .inl ⟨.inl rfl, flagsOfAcc_writeAcc_advance _ _⟩
  | input => exact .inl ⟨.inl rfl, flagsOfAcc_writeAcc_advance _ _⟩
  | added => exact .inl ⟨.inr (.inl rfl), flagsOfAcc_writeAcc_advance _ _⟩
  | subtracted => exact .inl ⟨.inr (.inr rfl), flagsOfAcc_writeAcc_advance _ _⟩
  | exceeded => exact .inr ⟨.inr (by simp), rfl, rfl⟩
  | exhausted => exact .inr ⟨.inr (by simp), rfl, rfl⟩
  | invalid => exact .inr ⟨.inr (by simp), rfl, rfl⟩
  | halted => exact .inr ⟨.inl (by simp [SetsFlags, Instr.opcode]), rfl, rfl⟩
  | stored => exact .inr ⟨.inl (by simp [SetsFlags, Instr.opcode]), rfl, rfl⟩
  | output => exact .inr ⟨.inl (by simp [SetsFlags, Instr.opcode]), rfl, rfl⟩
  | jumped hi => exact .inr ⟨.inl (not_setsFlags_of_jump (by tauto)), rfl, rfl⟩
  | fellThrough hi => exact .inr ⟨.inl (not_setsFlags_of_jump (.inr (by tauto))), rfl, rfl⟩

/-! ### The readers of the flags -/

/-- Whether a jump is taken or raises does not depend on the flags. -/
theorem takeJump_ignores_flags (a : Addr) (s : State) (z p : Bool) :
    resultWithFlags false false (.next (takeJump a { s with z := z, p := p })) =
      resultWithFlags false false (.next (takeJump a s)) := by
  by_cases hk : s.k = s.chainBound
  · rw [takeJump, if_pos hk, takeJump, if_pos hk]; rfl
  · rw [takeJump, if_neg hk, takeJump, if_neg hk]; rfl

/-- A conditional jump depends on the flags through its own condition only. -/
theorem jumpIf_ignores_flags (taken : Bool) (a : Addr) (s : State) (z p : Bool) :
    resultWithFlags false false (.next (jumpIf taken a { s with z := z, p := p })) =
      resultWithFlags false false (.next (jumpIf taken a s)) := by
  cases taken with
  | false => rfl
  | true => exact takeJump_ignores_flags a s z p

/-- What the input port gives does not depend on the flags. -/
theorem exec_load_port_ignores_flags (s : State) (z p : Bool) :
    resultWithFlags false false (exec (.load Config.inputPort) { s with z := z, p := p }) =
      resultWithFlags false false (exec (.load Config.inputPort) s) := by
  obtain ⟨hi, he, e⟩ | ⟨hi, he, e⟩ | ⟨r, rest, hi, hv, e⟩ | ⟨r, rest, v, hi, hv, e⟩ := exec_load_port_cases s
  · rw [e, exec_load_port_waiting (s := { s with z := z, p := p }) hi he]
  · rw [e, exec_load_port_exhausted (s := { s with z := z, p := p }) hi he]; rfl
  · rw [e, exec_load_port_invalid (s := { s with z := z, p := p }) hi hv]; rfl
  · rw [e, exec_load_port_stored (s := { s with z := z, p := p }) hi hv]; rfl

/-- An instruction that is no conditional jump does not depend on the flags. -/
theorem exec_ignores_flags {i : Instr} (hz : i.opcode ≠ 2) (hp : i.opcode ≠ 3) (s : State) (z p : Bool) :
    resultWithFlags false false (exec i { s with z := z, p := p }) = resultWithFlags false false (exec i s) := by
  cases i with
  | halt a => rfl
  | jump a => exact takeJump_ignores_flags a s z p
  | jzer a => exact absurd rfl hz
  | jpos a => exact absurd rfl hp
  | load a =>
    by_cases ha : a = Config.inputPort
    · exact ha ▸ exec_load_port_ignores_flags s z p
    · rw [exec_load_plain ha, exec_load_plain ha]; rfl
  | stor a =>
    by_cases ha : a = Config.outputPort
    · rw [ha, exec_stor_port, exec_stor_port]; rfl
    · rw [exec_stor_plain ha, exec_stor_plain ha]; rfl
  | add a => rw [exec_add, exec_add]; rfl
  | sub a => rw [exec_sub, exec_sub]; rfl

/-- Settles O30: the writers by the cases of `exec_flags_cases`, the readers by running an instruction from two states
that differ in the flags. -/
theorem flagsAreWrittenAndReadAsListed : Obligations.FlagsAreWrittenAndReadAsListed := by
  refine ⟨fun v s => ⟨zeroFlag_eq v, positiveFlag_eq v⟩, fun i s t h => ?_,
    fun i s z p hz hp => exec_ignores_flags hz hp s z p, fun a s b => ⟨?_, ?_⟩, fun image inputs e b s h => ?_⟩
  · obtain ⟨writes, flags⟩ | ⟨other, kept⟩ := exec_flags_cases h
    · exact ⟨fun _ _ => flags, fun no => absurd writes no⟩
    · refine ⟨fun running writes => ?_, fun _ => kept⟩
      obtain no | stopped := other
      · exact absurd writes no
      · exact absurd running stopped
  · exact jumpIf_ignores_flags s.z a s s.z b
  · exact jumpIf_ignores_flags s.p a s b s.p
  · obtain ⟨-, rfl⟩ := boot_cases h
    exact ⟨rfl, rfl⟩

end Sys2Proof.Machine
end

section
/-! The transcript only grows, and only at the two ports (10_state.md R27). -/

namespace Sys2Proof.Machine

/-- What an instruction may append to the transcript in state `s`: nothing, or the events of its port. -/
inductive Appends (s : State) : Instr → List Event → Prop where
  | nothing (i : Instr) : Appends s i []
  | asked : Appends s (.load Config.inputPort) [.prompt]
  | read {r : Text} {rest : List Text} (h : s.inputs = r :: rest) :
      Appends s (.load Config.inputPort) [.prompt, .echo r]
  | told : Appends s (.stor Config.outputPort) [.out s.acc]

/-- An instruction appends what `Appends` lists, one entry per way of ending. -/
theorem exec_appends {i : Instr} {s t : State} (h : exec i s = .next t) :
    ∃ events, t.transcript = s.transcript ++ events ∧ Appends s i events := by
  have silent {u : State} (e : u.transcript = s.transcript) :
      ∃ events, u.transcript = s.transcript ++ events ∧ Appends s i events :=
    ⟨[], by rw [e, List.append_nil], .nothing i⟩
  cases exec_next h with
  | halted => exact silent rfl
  | jumped => exact silent rfl
  | exceeded => exact silent rfl
  | fellThrough => exact silent rfl
  | loaded => exact silent rfl
  | stored => exact silent rfl
  | added => exact silent rfl
  | subtracted => exact silent rfl
  | input hr => exact ⟨_, rfl, .read hr⟩
  | exhausted => exact ⟨_, rfl, .asked⟩
  | invalid => exact ⟨_, rfl, .asked⟩
  | output => exact ⟨_, rfl, .told⟩

/-- A step only appends to the transcript: its jumps leave it alone, and its last micro-step halts or executes. -/
theorem step_appends {s t : State} (h : step s = .next t) : ∃ events, t.transcript = s.transcript ++ events := by
  refine step_rel (P := fun s t => ∃ events, t.transcript = s.transcript ++ events) (fun s => ⟨[], by simp⟩) ?_ h
  intro s a j t _ hm _
  obtain rfl | ⟨_, he⟩ := microStep_cases hm
  · exact ⟨[], by simp⟩
  · obtain ⟨events, happ, -⟩ := exec_appends he
    exact ⟨events, happ⟩

/-- Settles O31, from the list of what an instruction appends and the step's inversion lemma. -/
theorem onlyThePortInstructionsAppendEvents : Obligations.OnlyThePortInstructionsAppendEvents := by
  refine ⟨fun i s t h => ?_, fun s t h => step_appends h⟩
  obtain ⟨events, happ, hport⟩ := exec_appends h
  refine ⟨events, happ, fun ne => ?_⟩
  cases hport with
  | nothing => exact absurd rfl ne
  | asked => exact .inl ⟨rfl, .inl rfl⟩
  | read hr => exact .inl ⟨rfl, .inr ⟨_, _, hr, rfl⟩⟩
  | told => exact .inr ⟨rfl, rfl⟩

end Sys2Proof.Machine
end

section
/-! The text of the transcript (10_state.md R44). -/

namespace Sys2Proof.Machine

/-- The decimal digits of a number, most significant first. -/
def decimalDigits (n : Nat) : List Nat := if n = 0 then [0] else (Nat.digits 10 n).reverse

/-- The decimal text of a number has the library's digits, by induction on the number without its last digit. -/
theorem naturalText_eq_map_decimalDigits (n : Nat) : naturalText n = (decimalDigits n).map Nat.digitChar := by
  unfold naturalText
  induction n using Nat.strong_induction_on with
  | _ n ih =>
    by_cases small : n < 10
    · rw [Nat.toDigits_of_lt_base small]
      by_cases zero : n = 0
      · simp [decimalDigits, zero]
      · simp [decimalDigits, zero, Nat.digits_of_lt 10 n zero small]
    · have split := Nat.toDigits_append_toDigits (b := 10) (n := n / 10) (d := n % 10) (by decide) (by omega) (by omega)
      rw [show 10 * (n / 10) + n % 10 = n by omega] at split
      have front : decimalDigits n = decimalDigits (n / 10) ++ [n % 10] := by
        rw [decimalDigits, if_neg (by omega), decimalDigits, if_neg (by omega),
          Nat.digits_of_two_le_of_pos (by decide) (by omega), List.reverse_cons]
      rw [← split, ih (n / 10) (by omega), Nat.toDigits_of_lt_base (show n % 10 < 10 by omega), front, List.map_append]
      rfl

theorem decimalDigits_ne_nil (n : Nat) : decimalDigits n ≠ [] := by
  unfold decimalDigits
  split
  · simp
  · next h => exact List.reverse_ne_nil_iff.mpr (Nat.digits_ne_nil_iff_ne_zero.mpr h)

theorem decimalDigits_lt (n : Nat) : ∀ d ∈ decimalDigits n, d < 10 := by
  unfold decimalDigits
  split
  · simp
  · exact fun d hd => Nat.digits_lt_base (by decide) (List.mem_reverse.mp hd)

/-- There is no leading zero but in the text of 0. -/
theorem decimalDigits_head {n : Nat} (h : (decimalDigits n).head? = some 0) : decimalDigits n = [0] := by
  unfold decimalDigits at h ⊢
  split
  · rfl
  · next hn =>
    rw [if_neg hn, List.head?_reverse, List.getLast?_eq_some_getLast (Nat.digits_ne_nil_iff_ne_zero.mpr hn)] at h
    exact absurd (Option.some.inj h) (Nat.getLast_digit_ne_zero 10 hn)

theorem ofDigits_decimalDigits (n : Nat) : Nat.ofDigits 10 (decimalDigits n).reverse = n := by
  unfold decimalDigits
  split
  · next h => simp [h]
  · rw [List.reverse_reverse, Nat.ofDigits_digits]

/-- `integerText` writes the plain decimal text. -/
theorem plainDecimal_integerText (v : Int) : plainDecimal (integerText v) v := by
  refine ⟨decimalDigits v.natAbs, decimalDigits_ne_nil _, decimalDigits_lt _, decimalDigits_head, ?_,
    (ofDigits_decimalDigits _).symm⟩
  unfold integerText
  rw [naturalText_eq_map_decimalDigits]
  split <;> rfl

theorem renderEvent_out (promptText : Text) (v : Byte) :
    renderEvent promptText (.out v) = integerText (s8 v) ++ ['\n'] := rfl

/-- Settles O52: the text of an `Out` event is plain decimal by `plainDecimal_integerText`; the rule's two examples are
evaluated. -/
theorem transcriptTextIsItsEventsTexts : Obligations.TranscriptTextIsItsEventsTexts := by
  refine ⟨fun promptText => ⟨rfl, fun t => rfl, fun v => ?_, ?_, ?_, fun events => ?_⟩, fun events => rfl⟩
  · exact ⟨integerText (s8 v), plainDecimal_integerText _, renderEvent_out promptText v⟩
  · exact (renderEvent_out promptText _).trans (by decide)
  · exact (renderEvent_out promptText _).trans (by decide)
  · exact List.flatMap_def

end Sys2Proof.Machine
end

section
/-! The image at reset and the writers of the memory (20_memory.md R64). -/

namespace Sys2Proof.Machine

/-- After a reset each cell holds its word of the image. -/
theorem boot_cell {image : List Byte} {inputs : List Text} {e : SourceEnd} {b : Nat} {s : State}
    (h : State.boot image inputs e b = .next s) {n : Nat} (hn : n < 32) : some (s.cell n) = image[n]? := by
  obtain ⟨hlen, rfl⟩ := boot_cases h
  have hi : n < image.length := hlen ▸ hn
  have word : Memory.read (Memory.ofImage 0 image) n = image[n] := by simpa using read_ofImage 0 image n hi
  rw [cell_eq, word, List.getElem?_eq_getElem hi]

/-- A write changes no cell but its own. -/
theorem eq_of_read_write_ne {m : Memory} {a n : Nat} {v : Byte}
    (h : Memory.read (Memory.write m a v) n ≠ Memory.read m n) : a = n := by
  by_contra ne
  exact h (read_write_other m v (Ne.symm ne))

/-- The instructions that write the memory, each with the address it writes. -/
inductive StoresTo : Instr → Addr → Prop where
  | store (a : Addr) : StoresTo (.stor a) a
  | input : StoresTo (.load Config.inputPort) Config.inputPort

/-- An instruction leaves the memory alone, or writes the accumulator it ends with to the one address `StoresTo`
gives. -/
theorem exec_mem_cases {i : Instr} {s t : State} (h : exec i s = .next t) :
    t.mem = s.mem ∨ ∃ a, StoresTo i a ∧ t.mem = Memory.write s.mem a.toNat t.acc := by
  cases exec_next h with
  | halted => exact .inl rfl
  | jumped => exact .inl rfl
  | exceeded => exact .inl rfl
  | fellThrough => exact .inl rfl
  | loaded => exact .inl rfl
  | exhausted => exact .inl rfl
  | invalid => exact .inl rfl
  | added => exact .inl rfl
  | subtracted => exact .inl rfl
  | input => exact .inr ⟨_, .input, rfl⟩
  | stored => exact .inr ⟨_, .store _, rfl⟩
  | output => exact .inr ⟨_, .store _, rfl⟩

/-- An instruction that changes a cell stores to that cell. -/
theorem storesTo_of_cell_ne {i : Instr} {s t : State} {n : Nat} (h : exec i s = .next t) (ne : t.cell n ≠ s.cell n) :
    ∃ a, StoresTo i a ∧ a.toNat = n := by
  simp only [cell_eq] at ne
  obtain same | ⟨a, stores, written⟩ := exec_mem_cases h
  · exact absurd (congrArg (Memory.read · n) same) ne
  · exact ⟨a, stores, eq_of_read_write_ne (written ▸ ne)⟩

/-- Settles O32: the image by `boot_cell`, the writers by `storesTo_of_cell_ne`. -/
theorem onlyStoresAndInputChangeTheMemory : Obligations.OnlyStoresAndInputChangeTheMemory := by
  refine ⟨fun image inputs e b s h n hn => boot_cell h hn, fun i s t n h ne => ?_⟩
  obtain ⟨a, stores, rfl⟩ := storesTo_of_cell_ne h ne
  cases stores with
  | store => exact .inl ⟨a, rfl, rfl⟩
  | input => exact .inr ⟨rfl, rfl⟩

end Sys2Proof.Machine
end

section
/-! The decoder and the encoder are inverse to each other (30_encoding.md R76, R77). -/

namespace Sys2Proof.Machine

open Sys2Proof.Laws

/-! ### The two fields of a word -/

/-- A word is its opcode field and its operand field (R70). -/
theorem packFields_fields (w : Byte) : packFields (opcodeField w) (operandField w) = w := by
  have := w.isLt
  apply BitVec.eq_of_toNat_eq
  rw [toNat_packFields, opcodeField, operandField, BitVec.extractLsb'_toNat, BitVec.extractLsb'_toNat,
    Nat.shiftRight_eq_div_pow, Nat.shiftRight_zero]
  omega

/-! ### The two round trips -/

/-- The decoder takes the opcode from bits 7:5 (R72, R75). -/
theorem opcode_decode (w : Byte) : (decode w).opcode = (opcodeField w).toNat := by
  unfold decode
  split <;> next h => exact (congrArg Fin.val h).symm

/-- The decoder takes the operand from bits 4:0 (R73). -/
theorem operand_decode (w : Byte) : (decode w).operand = operandField w := by
  unfold decode
  split <;> rfl

/-- The encoder packs the opcode and the operand (R76). -/
theorem encode_eq_packFields (i : Instr) : encode i = packFields (BitVec.ofNat 3 i.opcode) i.operand := by
  cases i <;> rfl

/-- The facts about an instruction's word, made per instruction in the laws, hold of every one. -/
theorem wordFields (i : Instr) : WordFields.Statement i := by
  cases i with
  | halt a => exact WordFields.halt a
  | jump a => exact WordFields.jump a
  | jzer a => exact WordFields.jzer a
  | jpos a => exact WordFields.jpos a
  | load a => exact WordFields.load a
  | stor a => exact WordFields.stor a
  | add a => exact WordFields.add a
  | sub a => exact WordFields.sub a

/-- The round trip from an instruction, constructor by constructor: decoding takes the packed fields apart. -/
theorem decode_encode (i : Instr) : decode (encode i) = i := by
  cases i <;> simp [decode, encode, opcodeField_packFields, operandField_packFields]

/-- The round trip from a word: its instruction holds its two fields, and encoding packs them again. -/
theorem encode_decode (w : Byte) : encode (decode w) = w := by
  rw [encode_eq_packFields, opcode_decode, operand_decode, BitVec.ofNat_toNat, BitVec.setWidth_eq, packFields_fields]

/-! ### The signed reading of a word by its unsigned one -/

theorem s8_of_u8_low {w : Byte} (h : u8 w < 128) : s8 w = u8 w := by
  simp only [u8] at h ⊢
  simp only [s8, BitVec.msb_eq_decide, decide_eq_true_eq]
  rw [if_neg (by omega)]
  omega

theorem s8_of_u8_high {w : Byte} (h : 128 ≤ u8 w) : s8 w = u8 w - 256 := by
  simp only [u8] at h ⊢
  simp only [s8, BitVec.msb_eq_decide, decide_eq_true_eq]
  rw [if_pos (by omega)]
  omega

theorem s8_eq_trunc8_u8 (w : Byte) : s8 w = trunc8 (u8 w) := by
  have bound : u8 w < 256 := w.isLt
  obtain low | high := Nat.lt_or_ge (u8 w) 128
  · rw [s8_of_u8_low low, trunc8]
    omega
  · rw [s8_of_u8_high high, trunc8]
    omega

/-- Settles O4: the round trip is `decode_encode`; the readings follow from the word's number `op·32 + a`, which is
below 128 exactly for the opcodes 0 to 3. -/
theorem decodeInvertsEncode : Obligations.DecodeInvertsEncode := by
  refine ⟨fun i _ => ?_, by decide⟩
  obtain ⟨-, -, number, -⟩ := wordFields i
  have ha := i.operand.isLt
  refine ⟨decode_encode i, number, ?_, fun low => ?_, fun high => ?_⟩
  · rw [s8_eq_trunc8_u8, number]
    push_cast
    rfl
  · rw [s8_of_u8_low (by omega), number]
    push_cast
    rfl
  · rw [s8_of_u8_high (by omega), number]
    push_cast
    rfl

/-! ### The words 0..31 -/

/-- The words up to 31 are the 32 halts (R77): their opcode field is 0. -/
theorem decode_eq_halt {w : Byte} (h : u8 w ≤ 31) : decode w = .halt (operandField w) := by
  have number := toNat_packFields (opcodeField w) (operandField w)
  have zero : opcodeField w = 0#3 := BitVec.eq_of_toNat_eq (by
    rw [packFields_fields] at number
    simp only [u8] at h
    simp only [BitVec.toNat_ofNat]
    omega)
  have word : encode (.halt (operandField w)) = w := by
    rw [← packFields_fields w, zero, operandField_packFields, encode]
  exact (congrArg decode word).symm.trans (decode_encode _)

/-- A micro-step at a halt word halts, in the code region and outside it. -/
theorem microStep_of_halt_word {s : State} (h : u8 (s.cell s.pc.toNat) ≤ 31) : microStep s = .next s.halt := by
  rw [microStep_eq, decode_eq_halt h, exec_halt, ite_self]

/-- Settles O5: a word determines its instruction by the two round trips, and a halt word ends the step at its first
micro-step. -/
theorem everyWordIsOneInstruction : Obligations.EveryWordIsOneInstruction := by
  refine ⟨fun w => ⟨encode_decode w, ?_⟩, fun s running low => ?_⟩
  · rintro i rfl
    exact (decode_encode i).symm
  · exact step_of_microStep running (microStep_of_halt_word (s := { s with k := 0 }) low) rfl

end Sys2Proof.Machine
end

section
/-! Pass 1 and pass 2 report no dangling label, so the report's dangling errors are those of the pending queue
(30_encoding.md R89). -/

namespace Sys2Proof.Machine

/-! ### The kinds of error each part of the report can hold -/

/-- Binding labels adds duplicate-label errors alone (R88). -/
theorem bindLabels_errors {index : Nat} {labels : List PlacedLabel} {table : LabelTable} {errors : List AsmError}
    {e : AsmError} (h : e ∈ (bindLabels index labels (table, errors)).2) : e ∈ errors ∨ e.kind = .duplicateLabel := by
  induction labels generalizing table errors with
  | nil => exact .inl h
  | cons l rest ih =>
    simp only [bindLabels] at h
    split at h
    · exact ih h
    · obtain before | duplicate := ih h
      · obtain old | new := List.mem_append.mp before
        · exact .inl old
        · rw [List.mem_singleton.mp new]
          exact .inr rfl
      · exact .inr duplicate

/-- The kinds of pass 1's own errors (R87, R88). -/
def FirstPassKind (kind : AsmErrorKind) : Prop := kind = .malformedLabel ∨ kind = .duplicateLabel

/-- A line of pass 1 adds errors of its two kinds alone. -/
theorem firstPassLine_errors {number : Nat} {raw : Text} {st : FirstPass} {e : AsmError}
    (h : e ∈ (firstPassLine number raw st).errors) : e ∈ st.errors ∨ FirstPassKind e.kind := by
  have malformed {segments : List Text}
      (hm : e ∈ st.errors ++ segments.map fun _ => { line := number, kind := .malformedLabel }) :
      e ∈ st.errors ∨ FirstPassKind e.kind := by
    obtain old | new := List.mem_append.mp hm
    · exact .inl old
    · obtain ⟨_, _, rfl⟩ := List.mem_map.mp new
      exact .inr (.inl rfl)
  simp only [firstPassLine] at h
  split at h
  · exact .inl h
  · split at h
    · exact malformed h
    · obtain before | duplicate := bindLabels_errors h
      · exact malformed before
      · exact .inr (.inr duplicate)

theorem firstPassFrom_errors {number : Nat} {raws : List Text} {st : FirstPass} {e : AsmError}
    (h : e ∈ (firstPassFrom number raws st).errors) : e ∈ st.errors ∨ FirstPassKind e.kind := by
  induction raws generalizing number st with
  | nil => exact .inl h
  | cons raw rest ih =>
    obtain before | new := ih h
    · exact firstPassLine_errors before
    · exact .inr new

theorem firstPass_errors {source : Text} {e : AsmError} (h : e ∈ (firstPass source).errors) : FirstPassKind e.kind := by
  obtain start | kind := firstPassFrom_errors h
  · exact absurd start List.not_mem_nil
  · exact kind

theorem overlongError_kind {lines : List RealLine} {e : AsmError} (h : e ∈ overlongError lines) :
    e.kind = .tooManyLines := by
  unfold overlongError at h
  split at h
  · exact absurd h List.not_mem_nil
  · rw [List.mem_singleton.mp h]

/-- The kinds of a code part's error (R90, R91, R94). -/
theorem encodeCode_error {table : LabelTable} {code : Text} {kind : AsmErrorKind}
    (h : encodeCode table code = .error kind) :
    kind = .wrongTokenCount ∨ kind = .unrecognizedToken ∨ kind = .unknownMnemonic := by
  unfold encodeCode at h
  split at h
  · split at h
    · cases h
    · split at h <;> cases h
      exact .inr (.inl rfl)
  · split at h
    · cases h
      exact .inr (.inr rfl)
    · split at h <;> cases h
      exact .inr (.inl rfl)
  · cases h
    exact .inl rfl

/-- Each error of pass 2 is the error of a code part. -/
theorem secondPass_errors {table : LabelTable} {lines : List RealLine} {e : AsmError}
    (h : e ∈ (secondPass table lines).2) : ∃ code, encodeCode table code = .error e.kind := by
  induction lines with
  | nil => exact absurd h List.not_mem_nil
  | cons l rest ih =>
    simp only [secondPass] at h
    split at h
    · exact ih h
    · next kind hc =>
      obtain rfl | later := List.mem_cons.mp h
      · exact ⟨l.code, hc⟩
      · exact ih later

/-! ### The dangling labels of the whole report -/

/-- Everything the assembler has to report of a source, in the report's order (R98). -/
def assemblyErrors (source : Text) : List AsmError :=
  sortByLine ((firstPass source).errors ++ overlongError (firstPass source).lines) ++
    danglingErrors (firstPass source).pending ++ (secondPass (firstPass source).labels (firstPass source).lines).2

/-- The assembler reports exactly when there is something to report (R98). -/
theorem assemble_result (source : Text) : (assemble source).result =
    if assemblyErrors source = [] then
      .image (padImage (secondPass (firstPass source).labels (firstPass source).lines).1)
    else .report (assemblyErrors source) := rfl

/-- Whether an error is of the dangling-label kind. -/
def isDangling (e : AsmError) : Bool := e.kind == .danglingLabel

theorem filter_dangling_eq_nil {errors : List AsmError} (h : ∀ e ∈ errors, e.kind ≠ .danglingLabel) :
    errors.filter isDangling = [] :=
  List.filter_eq_nil_iff.mpr fun e he hd => h e he (eq_of_beq hd)

theorem firstPart_not_dangling (source : Text) :
    ∀ e ∈ sortByLine ((firstPass source).errors ++ overlongError (firstPass source).lines),
      e.kind ≠ .danglingLabel := by
  intro e he hd
  obtain first | long := List.mem_append.mp (mem_sortByLine.mp he)
  · obtain kind | kind := firstPass_errors first <;> simp [hd] at kind
  · exact absurd (hd.symm.trans (overlongError_kind long)) (by decide)

theorem secondPass_not_dangling (table : LabelTable) (lines : List RealLine) :
    ∀ e ∈ (secondPass table lines).2, e.kind ≠ .danglingLabel := by
  intro e he hd
  obtain ⟨code, hc⟩ := secondPass_errors he
  obtain kind | kind | kind := encodeCode_error hc <;> simp [hd] at kind

theorem filter_danglingErrors (pending : List PlacedLabel) :
    (danglingErrors pending).filter isDangling = danglingErrors pending :=
  List.filter_eq_self.mpr fun e he => by
    obtain ⟨l, _, rfl⟩ := List.mem_map.mp he
    rfl

/-- The dangling errors of the report are those of the pending queue, in its order. -/
theorem filter_assemblyErrors (source : Text) :
    (assemblyErrors source).filter isDangling = danglingErrors (firstPass source).pending := by
  rw [assemblyErrors, List.filter_append, List.filter_append, filter_dangling_eq_nil (firstPart_not_dangling source),
    filter_dangling_eq_nil (secondPass_not_dangling _ _), filter_danglingErrors, List.nil_append, List.append_nil]

/-- The quoted message, with the separator in front of it (R89, R98). -/
theorem danglingMessage_eq :
    ": ".toList ++ errorMessage .danglingLabel = ": label precedes end of file".toList := by decide

theorem reportEntry_dangling (line : Nat) : reportEntry { line := line, kind := .danglingLabel } =
    "Line ".toList ++ naturalText line ++ ": label precedes end of file".toList :=
  (List.append_assoc _ _ _).trans (congrArg _ danglingMessage_eq)

/-- Settles O50: with a label pending the report is not empty, and `filter_assemblyErrors` picks its dangling errors. -/
theorem danglingLabelsAreReportedOnce : Obligations.DanglingLabelsAreReportedOnce := by
  intro source pending
  have ne : assemblyErrors source ≠ [] := by
    intro empty
    have dangling := filter_assemblyErrors source
    rw [empty] at dangling
    exact pending (List.map_eq_nil_iff.mp dangling.symm)
  exact ⟨assemblyErrors source, (assemble_result source).trans (if_neg ne), filter_assemblyErrors source,
    reportEntry_dangling⟩

end Sys2Proof.Machine
end

section
/-! The three readings of a token (30_encoding.md R92). -/

namespace Sys2Proof.Machine

/-! ### Eight binary digits -/

/-- A bit as a binary digit character. -/
def bitChar (b : Bool) : Char := if b then '1' else '0'

theorem bitChar_toNat (b : Bool) : (bitChar b).toNat - 48 = b.toNat := by
  cases b <;> rfl

theorem bitChar_of_binary {c : Char} (h : (c == '0' || c == '1') = true) : bitChar (c == '1') = c := by
  obtain rfl | rfl : c = '0' ∨ c = '1' := by simpa using h
  · rfl
  · rfl

theorem binary_bitChar (b : Bool) : (bitChar b == '0' || bitChar b == '1') = true := by
  cases b <;> rfl

/-- The number that binary digit characters spell is Mathlib's, which has the least significant digit first. -/
theorem digitsValue_bitChar (bits : List Bool) :
    digitsValue 2 (bits.map bitChar) = Nat.ofDigits 2 (bits.reverse.map Bool.toNat) := by
  induction bits using List.reverseRecOn with
  | nil => rfl
  | append_singleton bits b ih =>
    simp only [digitsValue, List.map_append, List.foldl_append, List.map_cons, List.map_nil, List.foldl_cons,
      List.foldl_nil] at ih ⊢
    rw [ih, bitChar_toNat, List.reverse_append, List.reverse_singleton, List.singleton_append, List.map_cons,
      Nat.ofDigits_cons]
    omega

/-- `binaryLiteral` reads exactly the texts of eight binary digits (R92 item 1). -/
theorem binaryLiteral_eq_some {tok : Text} {v : Int} :
    binaryLiteral tok = some v ↔ ∃ n : Nat, spellsByte tok n ∧ v = n := by
  constructor
  · intro h
    unfold binaryLiteral at h
    split at h
    · next cond =>
      have binary := List.all_eq_true.mp cond.2
      have back : (tok.map (· == '1')).map bitChar = tok := by
        rw [List.map_map]
        exact (List.map_congr_left fun c hc => bitChar_of_binary (binary c hc)).trans (List.map_id' tok)
      refine ⟨_, ⟨tok.map (· == '1'), by simpa using cond.1, back.symm, rfl⟩, ?_⟩
      rw [← digitsValue_bitChar, back]
      exact (Option.some.inj h).symm
    · cases h
  · rintro ⟨_, ⟨bits, len, rfl, rfl⟩, rfl⟩
    change binaryLiteral (bits.map bitChar) = _
    rw [binaryLiteral, if_pos, digitsValue_bitChar]
    refine ⟨by simpa using len, List.all_eq_true.mpr fun c hc => ?_⟩
    obtain ⟨b, _, rfl⟩ := List.mem_map.mp hc
    exact binary_bitChar b

/-! ### Labels -/

/-- What a lookup gives is bound in the table. -/
theorem mem_of_lookupLabel {table : LabelTable} {name : Text} {index : Nat}
    (h : lookupLabel table name = some index) : (name, index) ∈ table := by
  obtain ⟨⟨found, _⟩, hf, rfl⟩ := Option.map_eq_some_iff.mp h
  obtain rfl : found = name := by simpa using List.find?_some hf
  exact List.mem_of_find?_eq_some hf

/-- A lookup fails exactly where the table does not hold the name. -/
theorem lookupLabel_eq_none {table : LabelTable} {name : Text} :
    lookupLabel table name = none ↔ ∀ index, (name, index) ∉ table := by
  rw [lookupLabel, Option.map_eq_none_iff, List.find?_eq_none]
  constructor
  · intro h index mem
    exact h _ mem (beq_self_eq_true name)
  · rintro h ⟨found, index⟩ mem same
    obtain rfl : found = name := eq_of_beq same
    exact h index mem

/-! ### The order of the readings -/

theorem resolve_of_binary {table : LabelTable} {tok : Text} {v : Int} (h : binaryLiteral tok = some v) :
    resolve table tok = some v := by
  rw [resolve, h]

theorem resolve_of_decimal {table : LabelTable} {tok : Text} {v : Int} (hb : binaryLiteral tok = none)
    (h : parseInteger tok = some v) : resolve table tok = some v := by
  rw [resolve, hb, h]

theorem resolve_of_label {table : LabelTable} {tok : Text} (hb : binaryLiteral tok = none)
    (hd : parseInteger tok = none) : resolve table tok = (lookupLabel table tok).map fun index : Nat => (index : Int) := by
  rw [resolve, hb, hd]

theorem binaryLiteral_eq_none {tok : Text} (h : ¬ ∃ v, spellsByte tok v) : binaryLiteral tok = none :=
  Option.eq_none_iff_forall_ne_some.mpr fun _ hv => by
    obtain ⟨n, spells, -⟩ := binaryLiteral_eq_some.mp hv
    exact h ⟨n, spells⟩

theorem parseInteger_eq_none {tok : Text} (h : ¬ ∃ v, spellsInteger tok v) : parseInteger tok = none :=
  Option.eq_none_iff_forall_ne_some.mpr fun v hv => h ⟨v, parseInteger_eq_some.mp hv⟩

/-- Settles O53: each reading is the one its parser's lemma names, under the failure of the readings before it. -/
theorem resolveTakesTheFirstReading : Obligations.ResolveTakesTheFirstReading := by
  refine fun table tok => ⟨fun v spells => ?_, fun noByte v spells => ?_, fun noByte noInteger => ?_, rfl, rfl⟩
  · exact resolve_of_binary (binaryLiteral_eq_some.mpr ⟨v, spells, rfl⟩)
  · exact resolve_of_decimal (binaryLiteral_eq_none noByte) (parseInteger_eq_some.mpr spells)
  · rw [resolve_of_label (binaryLiteral_eq_none noByte) (parseInteger_eq_none noInteger)]
    refine ⟨fun v h => ?_, Option.map_eq_none_iff.trans lookupLabel_eq_none⟩
    obtain ⟨index, found, rfl⟩ := Option.map_eq_some_iff.mp h
    exact ⟨index, rfl, mem_of_lookupLabel found⟩

end Sys2Proof.Machine
end

section
/-! The execution cycle: the halt test, where the pc goes in a micro-step, the port region and the stopped machine
(40_execution_cycle.md R115, R117 to R119). -/

namespace Sys2Proof.Machine

/-! ### The halt test comes first (R115) -/

/-- Opcode 0 is `halt` (R75). -/
theorem decode_of_opcodeField_zero {w : Byte} (h : opcodeField w = 0#3) : decode w = .halt (operandField w) := by
  rw [decode, h]
  rfl

/-- A micro-step at opcode 0, or at a pc outside the code region, halts. -/
theorem microStep_of_halt_test {s : State} (h : opcodeField (s.cell s.pc.toNat) = 0#3 ∨ 30 ≤ s.pc.toNat) :
    microStep s = .next s.halt := by
  rw [microStep_eq]
  obtain zero | outside := h
  · rw [decode_of_opcodeField_zero zero, exec_halt, ite_self]
  · exact if_pos outside

/-- A step at opcode 0, or at a pc outside the code region, halts in its first micro-step. -/
theorem step_of_halt_test {s : State} (running : s.status = .running)
    (h : opcodeField (s.cell s.pc.toNat) = 0#3 ∨ 30 ≤ s.pc.toNat) : step s = .next s.halt :=
  step_of_microStep running (microStep_of_halt_test (s := { s with k := 0 }) h) rfl

/-- Settles O10: both are `State.halt`, which writes the status and the counter only. -/
theorem haltTestComesBeforeExecution : Obligations.HaltTestComesBeforeExecution :=
  fun _ running test => ⟨microStep_of_halt_test test, step_of_halt_test running test⟩

/-! ### The stopped machine (R119) -/

/-- A step leaves a stopped machine as it is. -/
theorem step_stopped {s : State} (h : s.status ≠ .running) : step s = .next s := if_neg h

/-- Settles O9: a faulted machine is stopped, and a run returns a stopped machine. -/
theorem stoppedMachineStaysStopped : Obligations.StoppedMachineStaysStopped := by
  refine ⟨fun s stopped => step_stopped stopped, fun s kind fpc fw fuel faulted => ?_⟩
  have stopped : s.status ≠ .running := by simp [faulted]
  exact ⟨step_stopped stopped, run_stopped stopped fuel⟩

/-! ### Where the pc goes (R118) -/

/-- The pc of a micro-step from `s` to `t`, one case per way of ending: it stays where the machine stops, goes to the
target of a taken jump, and moves one up inside the code region otherwise. -/
inductive PcMove (s t : State) : Prop where
  | stopped (status : t.status ≠ .running) (pc : t.pc = s.pc)
  | taken (status : t.status = s.status) (target : s.jumpTarget = some t.pc)
  | advanced (status : t.status = s.status) (target : s.jumpTarget = none) (inside : s.pc.toNat ≤ 29)
      (pc : t.pc.toNat = s.pc.toNat + 1)

/-- The increment does not wrap inside the code region. -/
theorem toNat_pc_succ {pc : Addr} (h : pc.toNat ≤ 29) : (pc + 1#5).toNat = pc.toNat + 1 := by
  rw [BitVec.toNat_add, BitVec.toNat_ofNat]
  omega

/-- A micro-step with a jump to take goes to its target, or raises at the chain bound. -/
theorem pcMove_of_target {s t : State} {a : Addr} (target : s.jumpTarget = some a) (h : microStep s = .next t) :
    PcMove s t := by
  obtain rfl := Host.Outcome.next.inj ((microStep_of_target target).symm.trans h)
  obtain ⟨_, e⟩ | ⟨_, e⟩ := takeJump_cases a s
  · rw [e]
    exact .stopped (by simp) rfl
  · rw [e]
    exact .taken rfl target

/-- A micro-step with no jump to take stops, or moves the pc one up. -/
theorem pcMove_of_no_target {s t : State} (target : s.jumpTarget = none) (h : microStep s = .next t) :
    PcMove s t := by
  obtain rfl | ⟨code, he⟩ := microStep_cases h
  · exact .stopped (by simp) rfl
  have inside : s.pc.toNat ≤ 29 := Nat.le_of_lt_succ code
  have up {u : State} (status : u.status = s.status) (pc : u.pc = s.pc + 1#5) : PcMove s u :=
    .advanced status target inside (pc ▸ toNat_pc_succ inside)
  have noJump (a : Addr) := mt (jumpTarget_eq_some (s := s) (a := a)).mpr (by simp [target])
  have outside : ¬ Config.codeLimit ≤ s.pc.toNat := Nat.not_le.mpr code
  generalize decode (s.cell s.pc.toNat) = i at he noJump
  cases exec_next he with
  | jumped hi => exact absurd ⟨outside, hi⟩ (noJump _)
  | exceeded hi => exact absurd ⟨outside, hi⟩ (noJump _)
  | halted => exact .stopped (by simp) rfl
  | exhausted => exact .stopped (by simp) rfl
  | invalid => exact .stopped (by simp) rfl
  | fellThrough => exact up rfl rfl
  | loaded => exact up rfl rfl
  | input => exact up rfl rfl
  | stored => exact up rfl rfl
  | output => exact up rfl rfl
  | added => exact up rfl rfl
  | subtracted => exact up rfl rfl

/-- Every micro-step that answers a next state moves the pc as `PcMove` lists. -/
theorem microStep_pcMove {s t : State} (h : microStep s = .next t) : PcMove s t := by
  cases target : s.jumpTarget with
  | none => exact pcMove_of_no_target target h
  | some a => exact pcMove_of_target target h

/-- Settles O12, by the cases of `PcMove`, each of which meets the hypotheses of one clause only. -/
theorem pcAdvancesExactlyWithoutHaltJumpOrRaise : Obligations.PcAdvancesExactlyWithoutHaltJumpOrRaise := by
  intro s t running h
  cases microStep_pcMove h with
  | stopped status pc => exact ⟨fun go => absurd go status, fun go => absurd go status, fun _ => pc⟩
  | taken status target =>
    refine ⟨fun _ noJump => ?_, fun _ a jump => ?_, fun stop => absurd (status.trans running) stop⟩
    · exact absurd (target.symm.trans noJump) (by simp)
    · exact Option.some.inj (target.symm.trans jump)
  | advanced status target inside pc =>
    refine ⟨fun _ _ => ⟨pc, inside, by omega⟩, fun _ a jump => ?_, fun stop => absurd (status.trans running) stop⟩
    exact absurd (target.symm.trans jump) (by simp)

/-! ### The port region (R117) -/

/-- Outside the code region no jump is taken. -/
theorem jumpTarget_of_port {s : State} (h : 30 ≤ s.pc.toNat) : s.jumpTarget = none := if_pos h

/-- A chain whose first micro-step takes no jump is that micro-step. -/
theorem chain_of_no_target {s : State} (target : s.jumpTarget = none) (n : Nat) : chain n s = microStep s := by
  cases n with
  | zero => rfl
  | succ n =>
    rw [chain]
    cases h : microStep s with
    | next t => simp [State.midChain, microStep_of_no_target target h]
    | fault r => rfl
    | refused r => rfl

/-- A chain with a jump to take, below the bound, goes on from the target. -/
theorem chain_succ_of_target {s : State} {a : Addr} (target : s.jumpTarget = some a) (below : s.k < s.chainBound)
    (n : Nat) : chain (n + 1) s = chain n { s with pc := a, k := s.k + 1 } := by
  rw [chain, microStep_of_target target, takeJump, if_neg (Nat.ne_of_lt below)]
  simp [State.midChain]

/-- A chain goes on from wherever its taken jumps lead while the bound allows them. -/
theorem chain_add_of_followJumps {m : Nat} {s u : State} (h : followJumps m s = some u)
    (below : s.k + m ≤ s.chainBound) (n : Nat) : chain (n + m) s = chain n { u with k := s.k + m } := by
  induction m generalizing s u with
  | zero =>
    obtain rfl : s = u := Option.some.inj h
    rfl
  | succ m ih =>
    cases target : s.jumpTarget with
    | none => simp [followJumps, target] at h
    | some a =>
      have rest : followJumps m { s with pc := a, k := s.k + 1 } = some { u with k := s.k + 1 } := by
        rw [followJumps_succ target] at h
        simpa [h] using followJumps_counter (s.k + 1) m { s with pc := a }
      have bound : s.k + 1 + m ≤ s.chainBound := by omega
      calc chain (n + (m + 1)) s
          = chain (n + m) { s with pc := a, k := s.k + 1 } := chain_succ_of_target target (by omega) (n + m)
        _ = chain n { u with k := s.k + 1 + m } := by rw [ih rest bound]
        _ = chain n { u with k := s.k + (m + 1) } := by rw [Nat.add_right_comm, Nat.add_assoc]

/-- A step whose taken jumps, within the bound, lead to 30 or 31 halts there. -/
theorem step_of_followJumps_to_port {m : Nat} {s v : State} (running : s.status = .running)
    (h : followJumps m s = some v) (below : m ≤ s.chainBound) (port : 30 ≤ v.pc.toNat) : step s = .next v.halt := by
  have reset : followJumps m { s with k := 0 } = some { v with k := 0 } := by rw [followJumps_counter, h]; rfl
  have bound : s.chainBound = s.chainBound - m + m := by omega
  have atPort : ({ v with k := 0 + m } : State).jumpTarget = none := jumpTarget_of_port port
  calc step s
      = chain s.chainBound { s with k := 0 } := if_pos running
    _ = chain (s.chainBound - m + m) { s with k := 0 } := by rw [← bound]
    _ = chain (s.chainBound - m) { v with k := 0 + m } := chain_add_of_followJumps reset (by simpa using below) _
    _ = microStep { v with k := 0 + m } := chain_of_no_target atPort _
    _ = .next v.halt := microStep_of_halt_test (.inr port)

/-- A step with no jump to take is one micro-step. -/
theorem step_of_no_target {s : State} (running : s.status = .running) (target : s.jumpTarget = none) :
    step s = microStep { s with k := 0 } := by
  have target' : ({ s with k := 0 } : State).jumpTarget = none := target
  rw [step, if_pos running, chain_of_no_target target']

/-- A step that falls from 29 and goes on running stands at 30, between two chains. -/
theorem step_falls_from_29 {s t : State} (running : s.status = .running) (target : s.jumpTarget = none)
    (last : s.pc.toNat = 29) (h : step s = .next t) (go : t.status = .running) : t.pc.toNat = 30 ∧ t.k = 0 := by
  have target' : ({ s with k := 0 } : State).jumpTarget = none := target
  rw [step_of_no_target running target] at h
  refine ⟨?_, microStep_of_no_target target' h⟩
  cases microStep_pcMove h with
  | stopped status => exact absurd go status
  | taken _ jump => exact absurd (target'.symm.trans jump) (by simp)
  | advanced _ _ _ pc => simpa [last] using pc

/-- A micro-step from the code region into the port region falls from 29 to 30 or takes a jump there. -/
theorem microStep_into_port {s t : State} (code : s.pc.toNat < 30) (h : microStep s = .next t)
    (port : 30 ≤ t.pc.toNat) :
    (s.jumpTarget = none ∧ s.pc.toNat = 29 ∧ t.pc.toNat = 30 ∧ t.k = 0) ∨ s.jumpTarget = some t.pc := by
  cases microStep_pcMove h with
  | stopped _ pc => exact absurd (pc ▸ port) (Nat.not_le.mpr code)
  | taken _ target => exact .inr target
  | advanced _ target inside pc => exact .inl ⟨target, by omega, by omega, microStep_of_no_target target h⟩

/-- Settles O11: the halt test, the entry into the port region, the fall from 29, and the chain that jumps there. -/
theorem portRegionIsNeverExecuted : Obligations.PortRegionIsNeverExecuted := by
  refine ⟨fun s running port => step_of_halt_test running (.inr port),
    fun s t _ code h port => microStep_into_port code h port, fun s t running target last h go => ?_,
    fun s u a n running below h target port => ?_⟩
  · obtain ⟨pc, counter⟩ := step_falls_from_29 running target last h go
    refine ⟨pc, (step_of_halt_test go (.inr (Nat.le_of_eq pc.symm))).trans ?_⟩
    rw [State.halt, counter]
  · have jumps : followJumps (n + 1) s = some { u with pc := a } := by
      rw [followJumps_add, h]
      simp [followJumps, target]
    rw [step_of_followJumps_to_port running jumps below port, followJumps_eq h]
    rfl

end Sys2Proof.Machine
end

section
/-! Storing to the output port: the event, its text and the cell (42_load_store.md R143). -/

namespace Sys2Proof.Machine

/-! ### The text of a grown transcript (10_state.md R44) -/

theorem renderWith_append (promptText : Text) (old new : List Event) :
    renderWith promptText (old ++ new) = renderWith promptText old ++ renderWith promptText new :=
  List.flatMap_append

/-- An `Out` event adds its decimal text and a line terminator to the text. -/
theorem renderWith_append_out (promptText : Text) (events : List Event) (v : Byte) :
    renderWith promptText (events ++ [.out v]) = renderWith promptText events ++ integerText (s8 v) ++ ['\n'] := by
  have single : renderWith promptText [.out v] = integerText (s8 v) ++ ['\n'] := by
    rw [renderWith, List.flatMap_singleton, renderEvent_out]
  rw [renderWith_append, single, List.append_assoc]

/-! ### The state after the store -/

/-- The state after `stor 31`: the accumulator told to the host, written to the port's cell, and the pc moved on. -/
def outputStored (s : State) : State :=
  { s.emit (.out s.acc) with mem := Memory.write s.mem Config.outputPort.toNat s.acc }.advance

@[simp] theorem exec_stor_outputPort (s : State) : exec (.stor Config.outputPort) s = .next (outputStored s) :=
  exec_stor_port s

@[simp] theorem outputStored_transcript (s : State) : (outputStored s).transcript = s.transcript ++ [.out s.acc] := rfl

@[simp] theorem outputStored_acc (s : State) : (outputStored s).acc = s.acc := rfl

@[simp] theorem outputStored_cell_port (s : State) : (outputStored s).cell 31 = s.acc :=
  read_write_same s.mem 31 s.acc

/-- The store leaves every cell but the port's alone. -/
theorem sameCellsBut_outputStored (s : State) : sameCellsBut 31 s (outputStored s) :=
  fun _ other => read_write_other s.mem s.acc other

theorem sameHost_outputStored (s : State) : sameHost s (outputStored s) := ⟨rfl, rfl, rfl⟩

/-- A second store appends an equal event, the accumulator being kept. -/
theorem outputStored_twice_transcript (s : State) :
    (outputStored (outputStored s)).transcript = s.transcript ++ [.out s.acc, .out s.acc] := by
  simp

/-- Settles O24: the next state is `outputStored`, a second store repeats it, and the event's text is
`renderWith_append_out`. -/
theorem storeToTheOutputPortEmits : Obligations.StoreToTheOutputPortEmits := by
  intro s
  have text (promptText : Text) : renderWith promptText (outputStored s).transcript =
      renderWith promptText s.transcript ++ integerText (s8 s.acc) ++ ['\n'] :=
    renderWith_append_out promptText s.transcript s.acc
  exact ⟨outputStored s, outputStored (outputStored s), exec_stor_outputPort s, outputStored_transcript s,
    outputStored_cell_port s, sameCellsBut_outputStored s, outputStored_acc s, rfl, rfl, rfl, rfl, rfl,
    sameHost_outputStored s, text, exec_stor_outputPort (outputStored s), outputStored_twice_transcript s⟩

end Sys2Proof.Machine
end

section
/-! Arithmetic: the wrap laws, and `add` and `sub` of any cell (43_arithmetic.md R150 to R153). -/

namespace Sys2Proof.Machine

/-! ### The wrap (R153) -/

theorem trunc8_bounds (v : Int) : -128 ≤ trunc8 v ∧ trunc8 v ≤ 127 := by
  rw [trunc8]
  omega

/-- The wrap keeps what is already in range. -/
theorem trunc8_of_bounds {v : Int} (low : -128 ≤ v) (high : v ≤ 127) : trunc8 v = v := by
  rw [trunc8]
  omega

/-- Settles O2: a wrapped value is in range, and what is in range is kept. -/
theorem truncationIsIdempotentAndWraps : Obligations.TruncationIsIdempotentAndWraps := by
  refine ⟨fun v => ?_, fun v low high => trunc8_of_bounds low high, rfl, rfl⟩
  obtain ⟨low, high⟩ := trunc8_bounds v
  exact trunc8_of_bounds low high

/-! ### The unsigned reading of the ALU's results (R150) -/

theorem u8_aluAdd (x y : Byte) : u8 (aluAdd x y) = (u8 x + u8 y) % 256 := by
  rw [aluAdd_eq]
  exact BitVec.toNat_add x y

theorem u8_aluSub (x y : Byte) : u8 (aluSub x y) = (u8 x + 256 - u8 y) % 256 := by
  have bound : u8 y < 256 := y.isLt
  calc u8 (aluSub x y)
      = (256 - u8 y + u8 x) % 256 := by rw [aluSub_eq]; exact BitVec.toNat_sub x y
    _ = (u8 x + 256 - u8 y) % 256 := by congr 1; omega

/-! ### The state after an ALU instruction -/

/-- The state after the ALU's result `v`: written to the accumulator with its flags, and the pc moved on. -/
def resultWritten (s : State) (v : Byte) : State := (s.writeAcc v).advance

theorem exec_add_eq (a : Addr) (s : State) :
    exec (.add a) s = .next (resultWritten s (aluAdd s.acc (s.cell a.toNat))) := exec_add a s

theorem exec_sub_eq (a : Addr) (s : State) :
    exec (.sub a) s = .next (resultWritten s (aluSub s.acc (s.cell a.toNat))) := exec_sub a s

theorem resultWritten_acc (s : State) (v : Byte) : (resultWritten s v).acc = v := rfl

/-- What an ALU instruction leaves besides its result: the flags of the accumulator, the pc one up, and everything else
as it was. -/
theorem resultWritten_frame (s : State) (v : Byte) :
    flagsOfAcc (resultWritten s v) ∧ (resultWritten s v).pc = s.pc + 1#5 ∧ (resultWritten s v).k = 0 ∧
      (resultWritten s v).status = s.status ∧ (resultWritten s v).transcript = s.transcript ∧
      sameCells s (resultWritten s v) ∧ sameHost s (resultWritten s v) :=
  ⟨flagsOfAcc_writeAcc_advance v s, rfl, rfl, rfl, rfl, fun _ => rfl, rfl, rfl, rfl⟩

/-- Settles O27: the result is the ALU's, whose unsigned reading is `u8_aluAdd` or `u8_aluSub`. -/
theorem arithmeticIsModulo256OnPatterns : Obligations.ArithmeticIsModulo256OnPatterns := by
  refine fun a s t => ⟨fun h => ?_, fun h => ?_⟩
  · obtain rfl := Host.Outcome.next.inj ((exec_add_eq a s).symm.trans h)
    rw [resultWritten_acc]
    exact ⟨u8_aluAdd _ _, s8_aluAdd _ _, s8_bounds _⟩
  · obtain rfl := Host.Outcome.next.inj ((exec_sub_eq a s).symm.trans h)
    rw [resultWritten_acc]
    exact ⟨u8_aluSub _ _, s8_aluSub _ _, s8_bounds _⟩

/-- Settles O25: the word is opcode 6's, and the next state is `resultWritten` of the ALU's sum. -/
theorem addCompletes : Obligations.AddCompletes := by
  intro a s
  obtain ⟨-, -, number, -⟩ := Laws.WordFields.add a
  exact ⟨_, exec_add_eq a s, number, by rw [resultWritten_acc, s8_aluAdd], resultWritten_frame s _⟩

/-- Settles O26: the word is opcode 7's, and the next state is `resultWritten` of the ALU's difference. -/
theorem subCompletes : Obligations.SubCompletes := by
  intro a s
  obtain ⟨-, -, number, -⟩ := Laws.WordFields.sub a
  exact ⟨_, exec_sub_eq a s, number, by rw [resultWritten_acc, s8_aluSub], resultWritten_frame s _⟩

end Sys2Proof.Machine
end

section
/-! Execution errors: what raising one leaves, which instructions raise, and the step that ends in one
(60_exceptions.md R171, R175, R176). -/

namespace Sys2Proof.Machine

/-! ### Raising (R171) -/

/-- `t` is what raising `kind` at the instruction at `s.pc` leaves: the record, and the state of before it but for the
`Prompt` of an input error, the text a bad input used up, and the counter. -/
structure Raises (s : State) (kind : ErrorKind) (t : State) : Prop where
  status : t.status = .faulted kind s.pc (some (s.cell s.pc.toNat))
  pc : t.pc = s.pc
  k : t.k = 0
  acc : t.acc = s.acc
  z : t.z = s.z
  p : t.p = s.p
  mem : t.mem = s.mem
  transcript : t.transcript = s.transcript ++
    (if kind = .inputExhausted ∨ kind = .inputInvalid then [Event.prompt] else [])
  inputs : kind ≠ .inputInvalid → t.inputs = s.inputs
  inputEnd : t.inputEnd = s.inputEnd
  chainBound : t.chainBound = s.chainBound

theorem raises_jumpChainExceeded (s : State) : Raises s .jumpChainExceeded (s.raise .jumpChainExceeded) where
  status := by simp
  pc := rfl
  k := rfl
  acc := rfl
  z := rfl
  p := rfl
  mem := rfl
  transcript := by simp
  inputs _ := rfl
  inputEnd := rfl
  chainBound := rfl

/-- An input error is raised after the `Prompt`, with `inputs` left to read. -/
theorem raises_after_prompt {s : State} {kind : ErrorKind} {inputs : List Text}
    (input : kind = .inputExhausted ∨ kind = .inputInvalid) (kept : kind ≠ .inputInvalid → inputs = s.inputs) :
    Raises s kind ({ s.emit .prompt with inputs := inputs }.raise kind) where
  status := by simp
  pc := rfl
  k := rfl
  acc := rfl
  z := rfl
  p := rfl
  mem := rfl
  transcript := by rw [if_pos input]; rfl
  inputs := kept
  inputEnd := rfl
  chainBound := rfl

theorem raises_inputExhausted (s : State) : Raises s .inputExhausted ((s.emit .prompt).raise .inputExhausted) :=
  raises_after_prompt (inputs := s.inputs) (.inl rfl) fun _ => rfl

theorem raises_inputInvalid (s : State) (rest : List Text) :
    Raises s .inputInvalid ({ s.emit .prompt with inputs := rest }.raise .inputInvalid) :=
  raises_after_prompt (.inr rfl) fun other => absurd rfl other

theorem sameCells_of_raises {s t : State} {kind : ErrorKind} (h : Raises s kind t) : sameCells s t :=
  fun a => congrArg (Memory.read · a) h.mem

/-! ### The input errors of `load 30` (R175, R176) -/

/-- Settles O20: the load ends as `exec_load_port_exhausted` says, which raises by `raises_inputExhausted`. -/
theorem loadWithNoInputRaisesInputExhausted : Obligations.LoadWithNoInputRaisesInputExhausted := by
  refine ⟨fun s empty exhausted => ?_, rfl⟩
  have raised := raises_inputExhausted s
  exact ⟨_, exec_load_port_exhausted empty exhausted, raised.status, rfl, raised.pc, raised.k, raised.acc, raised.z,
    raised.p, sameCells_of_raises raised, raised.inputs (by decide), raised.inputEnd, raised.chainBound⟩

/-- Settles O21: the load ends as `exec_load_port_invalid` says, which raises by `raises_inputInvalid`. -/
theorem loadOfBadTextRaisesInputInvalid : Obligations.LoadOfBadTextRaisesInputInvalid := by
  refine ⟨fun s r rest queued bad => ?_, rfl⟩
  have raised := raises_inputInvalid s rest
  exact ⟨_, exec_load_port_invalid queued bad, raised.status, rfl, rfl, raised.inputEnd, raised.chainBound, raised.pc,
    raised.k, raised.acc, raised.z, raised.p, sameCells_of_raises raised⟩

/-! ### The step that ends in an execution error (R171) -/

/-- How an instruction leaves the status: as it was, halted, or with the record of an error it raised. -/
theorem exec_status_cases {i : Instr} {s t : State} (h : exec i s = .next t) :
    t.status = s.status ∨ t.status = .halted ∨ ∃ kind, Raises s kind t := by
  cases exec_next h with
  | halted => exact .inr (.inl rfl)
  | exceeded => exact .inr (.inr ⟨_, raises_jumpChainExceeded s⟩)
  | exhausted => exact .inr (.inr ⟨_, raises_inputExhausted s⟩)
  | invalid => exact .inr (.inr ⟨_, raises_inputInvalid s _⟩)
  | jumped => exact .inl rfl
  | fellThrough => exact .inl rfl
  | loaded => exact .inl rfl
  | input => exact .inl rfl
  | stored => exact .inl rfl
  | output => exact .inl rfl
  | added => exact .inl rfl
  | subtracted => exact .inl rfl

/-- A micro-step of a running machine that ends faulted raised that error where it stood. -/
theorem microStep_raises {s t : State} {kind : ErrorKind} {fpc : Addr} {fw : Option Byte}
    (running : s.status = .running) (h : microStep s = .next t) (faulted : t.status = .faulted kind fpc fw) :
    Raises s kind t ∧ fpc = s.pc ∧ fw = some (s.cell s.pc.toNat) := by
  obtain rfl | ⟨-, he⟩ := microStep_cases h
  · exact absurd faulted (by simp)
  obtain same | halted | ⟨raisedKind, raised⟩ := exec_status_cases he
  · exact absurd (faulted.symm.trans (same.trans running)) (by simp)
  · exact absurd (faulted.symm.trans halted) (by simp)
  · obtain ⟨rfl, rfl, rfl⟩ := Status.faulted.inj (faulted.symm.trans raised.status)
    exact ⟨raised, rfl, rfl⟩

/-- A chain followed with the counter at 0 is a chain of the state itself. -/
theorem followJumps_of_counter_reset {n : Nat} {s : State} {a : Addr}
    (h : followJumps n { s with k := 0 } = some { s with pc := a, k := 0 }) :
    followJumps n s = some { s with pc := a } := by
  have back := followJumps_counter s.k n { s with k := 0 }
  rw [h] at back
  exact back

/-- Settles O41: the step follows taken jumps, which change only the pc, to a micro-step that raises where it stands. -/
theorem executionErrorsArePrecise : Obligations.ExecutionErrorsArePrecise := by
  intro s t kind fpc fw running h faulted
  obtain ⟨n, a, -, jumps, last, -⟩ := step_cases running
  have arrived : ({ s with pc := a, k := n } : State).status = .running := running
  obtain ⟨raised, rfl, rfl⟩ := microStep_raises arrived (last.symm.trans h) faulted
  exact ⟨raised.pc, rfl, raised.acc, raised.z, raised.p, raised.k, raised.mem, raised.transcript,
    ⟨n, followJumps_of_counter_reset jumps⟩, raised.inputs, raised.inputEnd, raised.chainBound⟩

end Sys2Proof.Machine
end

section
/-! The invariant between steps: the flags follow the accumulator, a running pc is at most 30, the counter is 0 and the
memory is in canonical form (10_state.md R28, R30, R31). -/

namespace Sys2Proof.Machine

/-! ### The flags (R30) -/

theorem flagsAgree_of_flagsOfAcc {t : State} (h : flagsOfAcc t) : t.flagsAgree := by
  obtain ⟨hz, hp⟩ := h
  rw [State.flagsAgree, hz, hp]
  simp only [decide_eq_true_eq, and_self]

/-- An instruction writes the accumulator and the flags together, from the one value, or leaves all three alone. -/
theorem exec_acc_cases {i : Instr} {s t : State} (h : exec i s = .next t) :
    (SetsFlags i ∧ flagsOfAcc t) ∨ (t.acc = s.acc ∧ t.z = s.z ∧ t.p = s.p) := by
  cases exec_next h with
  | loaded => exact .inl ⟨.inl rfl, flagsOfAcc_writeAcc_advance _ _⟩
  | input => exact .inl ⟨.inl rfl, flagsOfAcc_writeAcc_advance _ _⟩
  | added => exact .inl ⟨.inr (.inl rfl), flagsOfAcc_writeAcc_advance _ _⟩
  | subtracted => exact .inl ⟨.inr (.inr rfl), flagsOfAcc_writeAcc_advance _ _⟩
  | halted => exact .inr ⟨rfl, rfl, rfl⟩
  | jumped => exact .inr ⟨rfl, rfl, rfl⟩
  | exceeded => exact .inr ⟨rfl, rfl, rfl⟩
  | fellThrough => exact .inr ⟨rfl, rfl, rfl⟩
  | exhausted => exact .inr ⟨rfl, rfl, rfl⟩
  | invalid => exact .inr ⟨rfl, rfl, rfl⟩
  | stored => exact .inr ⟨rfl, rfl, rfl⟩
  | output => exact .inr ⟨rfl, rfl, rfl⟩

theorem microStep_keeps_flagsAgree {s t : State} (agree : s.flagsAgree) (h : microStep s = .next t) :
    t.flagsAgree := by
  obtain rfl | ⟨-, he⟩ := microStep_cases h
  · exact agree
  obtain ⟨-, written⟩ | ⟨acc, z, p⟩ := exec_acc_cases he
  · exact flagsAgree_of_flagsOfAcc written
  · rwa [State.flagsAgree, acc, z, p]

theorem step_keeps_flagsAgree {s t : State} (agree : s.flagsAgree) (h : step s = .next t) : t.flagsAgree :=
  step_rel (P := fun s t => s.flagsAgree → t.flagsAgree) (fun _ => id)
    (fun s a j _ _ hm _ agree => microStep_keeps_flagsAgree (s := { s with pc := a, k := j }) agree hm) h agree

/-! ### The pc of a running machine (R31) -/

/-- The last micro-step of a chain stops the machine or moves the pc up inside the code region: a jump would leave the
counter above 0. -/
theorem microStep_pc_le {s t : State} (h : microStep s = .next t) (last : t.k = 0) (running : t.status = .running) :
    t.pc.toNat ≤ Config.codeLimit := by
  cases target : s.jumpTarget with
  | none =>
    cases pcMove_of_no_target target h with
    | stopped status => exact absurd running status
    | taken _ jump => exact absurd (target.symm.trans jump) (by simp)
    | advanced _ _ inside pc =>
      rw [pc, Config.codeLimit]
      omega
  | some a =>
    obtain rfl := Host.Outcome.next.inj ((microStep_of_target target).symm.trans h)
    obtain ⟨_, e⟩ | ⟨_, e⟩ := takeJump_cases a s
    · exact absurd (e ▸ running) (by simp)
    · rw [e] at last
      exact absurd last (Nat.succ_ne_zero s.k)

theorem step_keeps_pc_le {s t : State} (bound : s.status = .running → s.pc.toNat ≤ Config.codeLimit)
    (h : step s = .next t) : t.status = .running → t.pc.toNat ≤ Config.codeLimit :=
  step_rel (P := fun s t => (s.status = .running → s.pc.toNat ≤ Config.codeLimit) →
    t.status = .running → t.pc.toNat ≤ Config.codeLimit) (fun _ => id)
    (fun _ _ _ _ _ hm last _ running => microStep_pc_le hm last running) h bound

/-! ### The counter (R28) and the canonical form of the memory -/

theorem step_keeps_counter {s t : State} (zero : s.k = 0) (h : step s = .next t) : t.k = 0 :=
  step_rel (P := fun s t => s.k = 0 → t.k = 0) (fun _ => id) (fun _ _ _ _ _ _ last _ => last) h zero

theorem microStep_keeps_wf {s t : State} (wf : Memory.wf s.mem = true) (h : microStep s = .next t) :
    Memory.wf t.mem = true := by
  obtain rfl | ⟨-, he⟩ := microStep_cases h
  · exact wf
  obtain same | ⟨a, -, written⟩ := exec_mem_cases he
  · rwa [same]
  · rw [written]
    exact wf_write _ wf a.isLt

theorem step_keeps_wf {s t : State} (wf : Memory.wf s.mem = true) (h : step s = .next t) : Memory.wf t.mem = true :=
  step_rel (P := fun s t => Memory.wf s.mem = true → Memory.wf t.mem = true) (fun _ => id)
    (fun s a j _ _ hm _ wf => microStep_keeps_wf (s := { s with pc := a, k := j }) wf hm) h wf

/-- Settles O35, clause by clause. -/
theorem stepKeepsTheInvariant : Obligations.StepKeepsTheInvariant := by
  rintro s t ⟨agree, bound, zero, wf⟩ h
  exact ⟨step_keeps_flagsAgree agree h, step_keeps_pc_le bound h, step_keeps_counter zero h, step_keeps_wf wf h⟩

/-! ### The reset and the reachable states -/

/-- Settles O36: the cleared machine has the flags of 0, and an empty memory is in canonical form. -/
theorem resetHasTheInvariant : Obligations.ResetHasTheInvariant := by
  unfold Obligations.ResetHasTheInvariant
  decide

/-- A reset with an image leaves a machine that has the invariant. -/
theorem boot_consistent {image : List Byte} {inputs : List Text} {e : SourceEnd} {b : Nat} {s : State}
    (h : State.boot image inputs e b = .next s) : s.consistent := by
  obtain ⟨len, rfl⟩ := boot_cases h
  have agree : (zeroFlag 0#8 = true ↔ s8 0#8 = 0) ∧ (positiveFlag 0#8 = true ↔ 0 < s8 0#8) := by decide
  exact ⟨agree, fun _ => Nat.zero_le _, rfl, wf_ofImage (Nat.le_of_eq len)⟩

theorem consistent_of_reachable {s : State} (h : Reachable s) : s.consistent := by
  induction h with
  | boot h => exact boot_consistent h
  | step _ taken ih => exact stepKeepsTheInvariant _ _ ih taken

/-- Settles O37: `boot_of_length` gives the core, `boot_cell` its cells and `boot_consistent` the invariant. -/
theorem resetTransactionLoadsTheImage : Obligations.ResetTransactionLoadsTheImage := by
  refine fun image inputs e b => ⟨fun len => ?_, fun len => ?_⟩
  · have built := boot_of_length len inputs e b
    exact ⟨_, built, rfl, rfl, rfl, rfl, rfl, rfl, rfl, fun n hn => boot_cell built hn, rfl, rfl, rfl,
      boot_consistent built⟩
  · exact if_neg (by simpa [imageWellFormed, Config.memWords] using len)

/-- Settles O33: reachable states have the invariant, and an instruction that changes one of the three fields wrote all
of them. -/
theorem flagsFollowTheAccumulator : Obligations.FlagsFollowTheAccumulator := by
  refine ⟨fun s reachable => ?_, fun s t agree h => step_keeps_flagsAgree agree h, fun i s t h changed => ?_⟩
  · obtain ⟨⟨hz, hp⟩, -⟩ := consistent_of_reachable reachable
    refine ⟨⟨hz, hp⟩, fun ⟨z, p⟩ => ?_⟩
    have zero := hz.mp z
    have positive := hp.mp p
    omega
  · obtain ⟨writer, flags⟩ | ⟨acc, z, p⟩ := exec_acc_cases h
    · exact ⟨flags, writer⟩
    · exact absurd changed (by simp [acc, z, p])

/-! ### Where a machine can halt (R31) -/

/-- An image whose first word is `w` and whose other words are the halt word. -/
def imageOfFirstWord (w : Byte) : List Byte := w :: List.replicate 31 0#8

/-- The machine that image boots, with a host that has no input and a chain bound of 1. -/
def bootedFirstWord (w : Byte) : State :=
  State.mk (Memory.ofImage 0 (imageOfFirstWord w)) 0#8 Config.resetPc true false .running [] 0 [] .exhausted 1

theorem boot_imageOfFirstWord (w : Byte) :
    State.boot (imageOfFirstWord w) [] .exhausted 1 = .next (bootedFirstWord w) :=
  boot_of_length (by simp [imageOfFirstWord]) _ _ _

theorem bootedFirstWord_cell_zero (w : Byte) : (bootedFirstWord w).cell 0 = w := by
  simpa [imageOfFirstWord] using boot_cell (boot_imageOfFirstWord w) (n := 0) (by decide)

theorem bootedFirstWord_cell_other {w : Byte} {n : Nat} (pos : n ≠ 0) (low : n < 32) :
    (bootedFirstWord w).cell n = 0#8 := by
  have word := boot_cell (boot_imageOfFirstWord w) low
  obtain ⟨m, rfl⟩ := Nat.exists_eq_succ_of_ne_zero pos
  have halt : (imageOfFirstWord w)[m + 1]? = some 0#8 := by
    rw [imageOfFirstWord, List.getElem?_cons_succ, List.getElem?_replicate_of_lt (by omega)]
  exact Option.some.inj (word.trans halt)

/-- Booted with a `jump` to another address in front of halt words, the machine halts at that address. -/
theorem step_bootedFirstWord_jump {a : Addr} (ne : a ≠ 0#5) :
    step (bootedFirstWord (encode (.jump a))) = .next { bootedFirstWord (encode (.jump a)) with pc := a }.halt := by
  have pos : a.toNat ≠ 0 := fun zero => ne (BitVec.eq_of_toNat_eq zero)
  have target : (bootedFirstWord (encode (.jump a))).jumpTarget = some a := by
    refine jumpTarget_eq_some.mpr ⟨by simp [bootedFirstWord, Config.resetPc, Config.codeLimit], .inl ?_⟩
    exact (congrArg decode (bootedFirstWord_cell_zero _)).trans (decode_encode _)
  have landed : opcodeField ((bootedFirstWord (encode (.jump a))).cell a.toNat) = 0#3 := by
    rw [bootedFirstWord_cell_other pos a.isLt]
    rfl
  have halts : microStep { bootedFirstWord (encode (.jump a)) with pc := a, k := 1 } =
      .next { bootedFirstWord (encode (.jump a)) with pc := a }.halt := microStep_of_halt_test (.inl landed)
  calc step (bootedFirstWord (encode (.jump a)))
      = chain 1 (bootedFirstWord (encode (.jump a))) := rfl
    _ = chain 0 { bootedFirstWord (encode (.jump a)) with pc := a, k := 1 } :=
        chain_succ_of_target target Nat.zero_lt_one 0
    _ = _ := halts

/-- Every address is the pc of some reachable halted state: 0 by a halt word there, any other by a jump to it. -/
theorem exists_reachable_halted (a : Addr) : ∃ s, Reachable s ∧ s.status = .halted ∧ s.pc = a := by
  by_cases zero : a = 0#5
  · have first : opcodeField ((bootedFirstWord 0#8).cell 0) = 0#3 := by rw [bootedFirstWord_cell_zero]; rfl
    have halts : step (bootedFirstWord 0#8) = .next (bootedFirstWord 0#8).halt := step_of_halt_test rfl (.inl first)
    exact ⟨_, .step (.boot (boot_imageOfFirstWord _)) halts, rfl, zero.symm⟩
  · exact ⟨_, .step (.boot (boot_imageOfFirstWord _)) (step_bootedFirstWord_jump zero), rfl, rfl⟩

/-- Settles O34: the bound is the invariant's, and at 30 the halt test comes first. -/
theorem runningPcIsAtMost30 : Obligations.RunningPcIsAtMost30 := by
  refine ⟨fun s reachable running => ?_, fun s reachable running pc => ?_, exists_reachable_halted⟩
  · obtain ⟨-, bound, -⟩ := consistent_of_reachable reachable
    exact bound running
  · obtain ⟨-, -, counter, -⟩ := consistent_of_reachable reachable
    rw [step_of_halt_test running (.inr (Nat.le_of_eq pc.symm)), State.halt, counter]

end Sys2Proof.Machine
end

section
/-! The sizes a word can have: the wrap, the fields, packing and byte lists (00_scope.md R10, 30_encoding.md R71, R72,
R95). -/

namespace Sys2Proof.Machine

/-! ### The wrap (R10) -/

/-- Settles O1: `trunc8 v` is in range and congruent to `v`, and two numbers in range that are congruent modulo 256 are
equal. -/
theorem truncationIsTheUniqueByteResidue : Obligations.TruncationIsTheUniqueByteResidue := by
  refine ⟨fun v r => ⟨?_, ?_⟩, fun v => rfl⟩
  · rintro ⟨low, high, congruent⟩
    rw [trunc8]
    omega
  · rintro rfl
    obtain ⟨low, high⟩ := trunc8_bounds v
    refine ⟨low, high, ?_⟩
    rw [trunc8]
    omega

/-! ### The fields of a word (R72, R76) -/

/-- The number of a word is its opcode times 32 and its operand. -/
theorem u8_eq_fields (w : Byte) : u8 w = (opcodeField w).toNat * 32 + (operandField w).toNat :=
  (congrArg BitVec.toNat (packFields_fields w).symm).trans (Laws.toNat_packFields _ _)

theorem opcodeField_toNat (w : Byte) : (opcodeField w).toNat = u8 w / 32 := by
  have operand := (operandField w).isLt
  have number := u8_eq_fields w
  omega

theorem operandField_toNat (w : Byte) : (operandField w).toNat = u8 w % 32 := by
  have operand := (operandField w).isLt
  have number := u8_eq_fields w
  omega

/-- The signed reading differs from the number by 0 or 256. -/
theorem s8_eq_u8_or_sub (w : Byte) : s8 w = u8 w ∨ s8 w = u8 w - 256 := by
  obtain low | high := Nat.lt_or_ge (u8 w) 128
  · exact .inl (s8_of_u8_low low)
  · exact .inr (s8_of_u8_high high)

/-- Settles O3: shifting the signed reading by five places and masking drops the 256 that it may lack. -/
theorem opcodeFieldIsTheMaskedArithmeticShift : Obligations.OpcodeFieldIsTheMaskedArithmeticShift := by
  refine fun w => ⟨?_, opcodeField_toNat w⟩
  have bound : u8 w < 256 := w.isLt
  have power : ((2 ^ 5 : Nat) : Int) = 32 := rfl
  rw [opcodeField_toNat, maskThree, shiftRightArith, power]
  obtain same | less := s8_eq_u8_or_sub w <;> omega

/-- Settles O7: nine evaluations of the decoder. -/
theorem wordsFromTheOpcodeMapDecode : Obligations.WordsFromTheOpcodeMapDecode := by
  unfold Obligations.WordsFromTheOpcodeMapDecode
  decide

/-! ### Packing (R95) -/

theorem u8_cellOf (v : Int) : (u8 (cellOf v) : Int) = v % 256 := by
  rw [u8, cellOf, BitVec.toNat_ofInt]
  omega

/-- A packed word whose operand is an address has the number `opcode·32 + value`. -/
theorem u8_packWord {opcode : Nat} {v : Int} (small : opcode < 8) (low : 0 ≤ v) (high : v < 32) :
    (u8 (packWord opcode v) : Int) = opcode * 32 + v := by
  rw [packWord, cellOf_trunc8, u8_cellOf]
  omega

theorem operandWellFormed_iff {v : Int} : operandWellFormed v = true ↔ 0 ≤ v ∧ v < 32 := by
  rw [operandWellFormed, Bool.and_eq_true, decide_eq_true_eq, decide_eq_true_eq]
  rfl

/-- Settles O47: the two fields of the number `opcode·32 + value`. -/
theorem packedOperandsInRangeKeepTheOpcode : Obligations.PackedOperandsInRangeKeepTheOpcode := by
  intro opcode v small wf
  obtain ⟨low, high⟩ := operandWellFormed_iff.mp wf
  have number := u8_packWord small low high
  rw [opcode_decode, operand_decode, opcodeField_toNat, operandField_toNat]
  omega

/-! ### Byte lists (R71) -/

theorem decodeAll_eq_map (ws : List Byte) : decodeAll ws = ws.map decode := by
  induction ws with
  | nil => rfl
  | cons w ws ih => rw [decodeAll, ih, List.map_cons]

/-- Settles O6: word by word, the two round trips. -/
theorem programsDecodeWordByWord : Obligations.ProgramsDecodeWordByWord := by
  refine ⟨fun is => ?_, fun ws => ?_, fun i rest => ?_, rfl⟩
  · rw [decodeAll_eq_map, List.map_map]
    exact (List.map_congr_left fun i _ => decode_encode i).trans (List.map_id is)
  · rw [decodeAll_eq_map, List.map_map]
    exact (List.map_congr_left fun w _ => encode_decode w).trans (List.map_id ws)
  · rw [decodeBytes, decode_encode]

end Sys2Proof.Machine
end

section
/-! The instructions, each run from any state: what it leaves, and when it waits (10_state.md section 10,
40_execution_cycle.md section 3, 41_control_transfer.md, 42_load_store.md). -/

namespace Sys2Proof.Machine

/-! ### Control -/

/-- Settles O14: the next state is `State.halt`. -/
theorem haltCompletes : Obligations.HaltCompletes :=
  fun _ s => ⟨s.halt, rfl, rfl, rfl, rfl, ⟨rfl, rfl, rfl, rfl⟩, fun _ => rfl, rfl, rfl, rfl⟩

/-- An instruction that takes a jump to `a` in state `s`, by itself or by its flag. -/
def TakesJump (s : State) (i : Instr) (a : Addr) : Prop :=
  i = .jump a ∨ (i = .jzer a ∧ s.z = true) ∨ (i = .jpos a ∧ s.p = true)

theorem exec_of_takesJump {s : State} {i : Instr} {a : Addr} (h : TakesJump s i a) :
    exec i s = .next (takeJump a s) := by
  obtain rfl | ⟨rfl, flag⟩ | ⟨rfl, flag⟩ := h
  · exact exec_jump a s
  · rw [exec_jzer, flag]
    rfl
  · rw [exec_jpos, flag]
    rfl

theorem exec_of_taken_below_bound {s : State} {i : Instr} {a : Addr} (h : TakesJump s i a)
    (below : s.k ≠ s.chainBound) : exec i s = .next { s with pc := a, k := s.k + 1 } := by
  rw [exec_of_takesJump h, takeJump, if_neg below]

theorem exec_of_taken_at_bound {s : State} {i : Instr} {a : Addr} (h : TakesJump s i a) (bound : s.k = s.chainBound) :
    exec i s = .next (s.raise .jumpChainExceeded) := by
  rw [exec_of_takesJump h, takeJump, if_pos bound]

/-- A conditional jump whose flag is clear. -/
theorem exec_of_untaken {s : State} {i : Instr} {a : Addr}
    (h : (i = .jzer a ∧ s.z = false) ∨ (i = .jpos a ∧ s.p = false)) : exec i s = .next s.advance := by
  obtain ⟨rfl, flag⟩ | ⟨rfl, flag⟩ := h
  · rw [exec_jzer, flag]
    rfl
  · rw [exec_jpos, flag]
    rfl

/-- Settles O15, by `exec_of_taken_below_bound`. -/
theorem takenJumpCompletes : Obligations.TakenJumpCompletes :=
  fun _ _ _ taken below => ⟨_, exec_of_taken_below_bound taken below, rfl, rfl, rfl, ⟨rfl, rfl, rfl, rfl⟩, fun _ => rfl,
    rfl, rfl, rfl⟩

/-- Settles O16, by `exec_of_untaken`. -/
theorem untakenJumpFallsThrough : Obligations.UntakenJumpFallsThrough :=
  fun _ _ _ untaken => ⟨_, exec_of_untaken untaken, rfl, rfl, rfl, ⟨rfl, rfl, rfl, rfl⟩, fun _ => rfl, rfl, rfl, rfl⟩

/-- Settles O17: the jump raises by `exec_of_taken_at_bound`, and `raises_jumpChainExceeded` says what that leaves. -/
theorem jumpAtTheBoundRaises : Obligations.JumpAtTheBoundRaises := by
  intro i a s taken bound
  have raised := raises_jumpChainExceeded s
  exact ⟨_, exec_of_taken_at_bound taken bound, raised.status, raised.pc, raised.k,
    ⟨raised.acc, raised.z, raised.p, rfl⟩, sameCells_of_raises raised, rfl, raised.inputEnd, raised.chainBound⟩

/-- Settles O38: `SetFlags(0)` sets the reset's flags, only the writers of the flags change them, and each conditional
jump follows its flag. -/
theorem flagsAtResetMatchTheAccumulator : Obligations.FlagsAtResetMatchTheAccumulator := by
  refine ⟨fun image inputs e b s h => ?_, fun i s t h hz hp other => ?_, fun a s hz hp => ⟨fun below => ?_, ?_⟩⟩
  · obtain ⟨-, rfl⟩ := boot_cases h
    rfl
  · obtain ⟨writer, -⟩ | ⟨-, z, p⟩ := exec_acc_cases h
    · exact absurd writer other
    · exact ⟨z.trans hz, p.trans hp⟩
  · exact exec_of_taken_below_bound (.inr (.inl ⟨rfl, hz⟩)) below
  · exact exec_of_untaken (.inr ⟨rfl, hp⟩)

/-! ### Load and store -/

/-- Settles O18: the next state is `resultWritten` of the cell's content. -/
theorem loadOfACellCompletes : Obligations.LoadOfACellCompletes :=
  fun a s plain => ⟨resultWritten s (s.cell a.toNat), exec_load_plain plain s, rfl, resultWritten_frame s _⟩

/-- Settles O19: the value read is stored in the port's cell and loaded from it. -/
theorem loadOfTheInputPortCompletes : Obligations.LoadOfTheInputPortCompletes :=
  fun s _ _ v queued parsed => ⟨_, exec_load_port_stored queued parsed, rfl, flagsOfAcc_writeAcc_advance _ _,
    read_write_same s.mem 30 v, fun _ other => read_write_other s.mem v other, rfl, rfl, rfl, rfl, rfl, rfl, rfl⟩

/-- Settles O23: one cell is written. -/
theorem storeToACellCompletes : Obligations.StoreToACellCompletes :=
  fun a s plain => ⟨_, exec_stor_plain plain s, read_write_same s.mem a.toNat s.acc,
    fun _ other => read_write_other s.mem s.acc other, ⟨rfl, rfl, rfl, rfl⟩, rfl, rfl, rfl, rfl, rfl, rfl⟩

/-- In the code region a micro-step executes the word at the pc (40_execution_cycle.md R114). -/
theorem microStep_in_code {s : State} (code : s.pc.toNat < 30) :
    microStep s = exec (decode (s.cell s.pc.toNat)) s := by
  rw [microStep_eq]
  exact if_neg (Nat.not_le.mpr code)

/-- Settles O29: in the code region neither the store nor the load is a port's, and the fetch reads the written cell. -/
theorem storeIsSeenByTheNextFetch : Obligations.StoreIsSeenByTheNextFetch := by
  intro a s code
  have noInput : a ≠ Config.inputPort := by
    rintro rfl
    exact absurd code (by decide)
  have noOutput : a ≠ Config.outputPort := by
    rintro rfl
    exact absurd code (by decide)
  have written : ({ s with mem := Memory.write s.mem a.toNat s.acc }.advance).cell a.toNat = s.acc :=
    read_write_same s.mem a.toNat s.acc
  refine ⟨_, exec_stor_plain noOutput s, fun arrived => ⟨?_, ?_⟩, _, exec_load_plain noInput _, written⟩
  · rw [fetch_eq, arrived]
    exact congrArg some written
  · rw [microStep_in_code (by rwa [arrived]), arrived, written]

/-! ### Waiting for the host -/

/-- Every instruction but the input port's load answers a next state. -/
theorem exec_answers {i : Instr} (h : i ≠ .load Config.inputPort) (s : State) : ∃ t, exec i s = .next t := by
  cases i with
  | halt a => exact ⟨_, exec_halt a s⟩
  | jump a => exact ⟨_, exec_jump a s⟩
  | jzer a => exact ⟨_, exec_jzer a s⟩
  | jpos a => exact ⟨_, exec_jpos a s⟩
  | load a => exact ⟨_, exec_load_plain (fun port => h (port ▸ rfl)) s⟩
  | stor a =>
    by_cases port : a = Config.outputPort
    · exact ⟨_, port ▸ exec_stor_port s⟩
    · exact ⟨_, exec_stor_plain port s⟩
  | add a => exact ⟨_, exec_add a s⟩
  | sub a => exact ⟨_, exec_sub a s⟩

/-- The load of the input port waits in the first case of its inversion lemma alone. -/
theorem waits_of_exec_load_port {s : State} {r : Fault} (h : exec (.load Config.inputPort) s = .fault r) :
    s.inputs = [] ∧ s.inputEnd = .silent := by
  obtain ⟨empty, silent, -⟩ | ⟨-, -, e⟩ | ⟨_, _, -, -, e⟩ | ⟨_, _, _, -, -, e⟩ := exec_load_port_cases s
  · exact ⟨empty, silent⟩
  · exact absurd (h.symm.trans e) (by simp)
  · exact absurd (h.symm.trans e) (by simp)
  · exact absurd (h.symm.trans e) (by simp)

/-- Settles O22: all other instructions answer, by `exec_answers`. -/
theorem onlyAnUnansweredInputLoadWaits : Obligations.OnlyAnUnansweredInputLoadWaits := by
  refine fun i s => ⟨⟨fun waits => ?_, ?_⟩, exec_not_refused i s⟩
  · by_cases port : i = .load Config.inputPort
    · subst port
      exact ⟨rfl, waits_of_exec_load_port waits⟩
    · obtain ⟨t, answers⟩ := exec_answers port s
      exact absurd (waits.symm.trans answers) (by simp)
  · rintro ⟨rfl, empty, silent⟩
    exact exec_load_port_waiting empty silent

/-! ### Overflow -/

theorem trunc8_of_over {v : Int} (low : 127 < v) (high : v ≤ 255) : trunc8 v = v - 256 := by
  rw [trunc8]
  omega

theorem trunc8_of_under {v : Int} (low : -256 ≤ v) (high : v < -128) : trunc8 v = v + 256 := by
  rw [trunc8]
  omega

/-- Settles O28: the readings of both operands are in range, so a result is at most once 256 out of it. -/
theorem overflowResultsBySigns : Obligations.OverflowResultsBySigns := by
  intro a s t u hadd hsub x m
  obtain rfl := Host.Outcome.next.inj ((exec_add_eq a s).symm.trans hadd)
  obtain rfl := Host.Outcome.next.inj ((exec_sub_eq a s).symm.trans hsub)
  have sum : s8 (resultWritten s (aluAdd s.acc (s.cell a.toNat))).acc = trunc8 (x + m) := s8_aluAdd _ _
  have difference : s8 (resultWritten s (aluSub s.acc (s.cell a.toNat))).acc = trunc8 (x - m) := s8_aluSub _ _
  have hx : -128 ≤ x ∧ x ≤ 127 := s8_bounds s.acc
  have hm : -128 ≤ m ∧ m ≤ 127 := s8_bounds (s.cell a.toNat)
  rw [sum, difference]
  refine ⟨fun _ _ above => ?_, fun _ _ under => ?_, fun mixed => ?_, trunc8_of_bounds, ?_, fun above => ?_,
    fun under => ?_, trunc8_of_bounds, rfl, rfl⟩
  · rw [trunc8_of_over above (by omega)]
    omega
  · rw [trunc8_of_under (by omega) under]
    omega
  · exact trunc8_of_bounds (by omega) (by omega)
  · omega
  · exact ⟨by omega, by omega, trunc8_of_over above (by omega)⟩
  · exact ⟨by omega, by omega, trunc8_of_under (by omega) under⟩

end Sys2Proof.Machine
end

section
/-! `Step()` against the micro-step: the instruction a step runs, and the trampoline that makes the same states
(40_execution_cycle.md R114, R121). -/

namespace Sys2Proof.Machine

/-- Settles O8: `chain_unfold` at the start of the step, whose micro-step executes the decoded word. -/
theorem stepRunsTheDecodedInstruction : Obligations.StepRunsTheDecodedInstruction := by
  rintro s w i running code fetched rfl -
  obtain rfl : s.cell s.pc.toNat = w := Option.some.inj ((fetch_eq s).symm.trans fetched)
  have first := microStep_in_code (s := { s with k := 0 }) code
  have unfolded := chain_unfold (s := { s with k := 0 }) rfl
  rw [first] at unfolded
  rw [step, if_pos running]
  exact unfolded

/-! ### The trampoline along taken jumps -/

/-- A chain that can be followed for `n` jumps can be followed for fewer. -/
theorem followJumps_of_le {m n : Nat} {s t : State} (h : followJumps n s = some t) (le : m ≤ n) :
    ∃ u, followJumps m s = some u ∧ followJumps (n - m) u = some t := by
  obtain ⟨d, rfl⟩ := Nat.exists_eq_add_of_le le
  rw [followJumps_add] at h
  obtain ⟨u, front, back⟩ := Option.bind_eq_some_iff.mp h
  exact ⟨u, front, by rwa [Nat.add_sub_cancel_left]⟩

/-- A micro-step that takes a jump lists no state. -/
theorem microTrace_succ_of_target {s : State} {a : Addr} (running : s.status = .running)
    (target : s.jumpTarget = some a) (below : s.k < s.chainBound) (n : Nat) :
    microTrace (n + 1) s = microTrace n { s with pc := a, k := s.k + 1 } := by
  rw [microTrace, if_pos running, microStep_of_target target, takeJump, if_neg (Nat.ne_of_lt below)]
  simp [State.midChain]

/-- The rest of a chain, from the target of its first jump and with that jump counted. -/
theorem followJumps_rest {m : Nat} {s u : State} {a : Addr} (h : followJumps (m + 1) s = some u)
    (target : s.jumpTarget = some a) :
    followJumps m { s with pc := a, k := s.k + 1 } = some { u with k := s.k + 1 } := by
  rw [followJumps_succ target] at h
  have counted := followJumps_counter (s.k + 1) m { s with pc := a }
  rwa [h] at counted

/-- The trampoline goes on from wherever the taken jumps lead while the bound allows them. -/
theorem microTrace_add_of_followJumps {m : Nat} {s u : State} (running : s.status = .running)
    (h : followJumps m s = some u) (below : s.k + m ≤ s.chainBound) (n : Nat) :
    microTrace (n + m) s = microTrace n { u with k := s.k + m } := by
  induction m generalizing s u with
  | zero =>
    obtain rfl : s = u := Option.some.inj h
    rfl
  | succ m ih =>
    cases target : s.jumpTarget with
    | none => simp [followJumps, target] at h
    | some a =>
      have rest := ih (s := { s with pc := a, k := s.k + 1 }) running (followJumps_rest h target)
        (show s.k + 1 + m ≤ s.chainBound by omega)
      calc microTrace (n + (m + 1)) s
          = microTrace (n + m) { s with pc := a, k := s.k + 1 } :=
            microTrace_succ_of_target running target (by omega) (n + m)
        _ = microTrace n { u with k := s.k + 1 + m } := rest
        _ = microTrace n { u with k := s.k + (m + 1) } := by rw [Nat.add_right_comm, Nat.add_assoc]

/-! ### The ends of both traces -/

theorem microTrace_stopped {s : State} (stopped : s.status ≠ .running) (n : Nat) : microTrace n s = [] := by
  cases n with
  | zero => rfl
  | succ n => exact if_neg stopped

theorem stepTrace_stopped {s : State} (stopped : s.status ≠ .running) (n : Nat) : stepTrace n s = [] := by
  cases n with
  | zero => rfl
  | succ n => exact if_neg stopped

/-- A micro-step that answers no state ends the trampoline. -/
theorem microTrace_of_no_next {s : State} (h : ∀ t, microStep s ≠ .next t) (n : Nat) : microTrace n s = [] := by
  cases n with
  | zero => rfl
  | succ n =>
    rw [microTrace]
    cases e : microStep s with
    | next t => exact absurd e (h t)
    | fault r => exact ite_self _
    | refused r => exact ite_self _

/-- A step that answers no state ends the trace of the steps. -/
theorem stepTrace_of_no_next {s : State} (h : ∀ t, step s ≠ .next t) (n : Nat) : stepTrace n s = [] := by
  cases n with
  | zero => rfl
  | succ n =>
    rw [stepTrace]
    cases e : step s with
    | next t => exact absurd e (h t)
    | fault r => exact ite_self _
    | refused r => exact ite_self _

/-- The micro-step at the end of a chain is listed. -/
theorem microTrace_succ_of_last {s t : State} (running : s.status = .running) (h : microStep s = .next t)
    (last : t.k = 0) (n : Nat) : microTrace (n + 1) s = t :: microTrace n t := by
  rw [microTrace, if_pos running, h]
  simp [State.midChain, last]

theorem stepTrace_succ {s t : State} (running : s.status = .running) (h : step s = .next t) (n : Nat) :
    stepTrace (n + 1) s = t :: stepTrace n t := by
  rw [stepTrace, if_pos running, h]

/-! ### The two traces -/

/-- A step as the trampoline makes it: `j` micro-steps list nothing and lead to a state `u`, whose micro-step is the
last of the chain and answers what the step answers. -/
structure Trampoline (s : State) (j : Nat) (u : State) : Prop where
  silent : ∀ m, m ≤ j → microTrace m s = []
  goesOn : ∀ n, microTrace (n + j) s = microTrace n u
  running : u.status = .running
  answer : step s = microStep u
  last : ∀ t, microStep u = .next t → t.k = 0

theorem exists_trampoline {s : State} (running : s.status = .running) (zero : s.k = 0) :
    ∃ j u, Trampoline s j u := by
  obtain ⟨j, a, bound, jumps, answer, last⟩ := step_cases running
  have jumps := followJumps_of_counter_reset jumps
  have go {m : Nat} {v : State} (le : m ≤ j) (h : followJumps m s = some v) (n : Nat) :
      microTrace (n + m) s = microTrace n { v with k := m } := by
    simpa [zero] using microTrace_add_of_followJumps running h (by omega) n
  refine ⟨j, { s with pc := a, k := j }, fun m le => ?_, fun n => go (Nat.le_refl j) jumps n, running, answer, last⟩
  obtain ⟨v, front, -⟩ := followJumps_of_le jumps le
  simpa [microTrace] using go le front 0

/-- A step that answers a state lists it once its micro-steps are made. -/
theorem Trampoline.trace_next {s u t : State} {j : Nat} (h : Trampoline s j u) (ht : step s = .next t) (n : Nat) :
    microTrace (n + 1 + j) s = t :: microTrace n t := by
  have ends : microStep u = .next t := h.answer.symm.trans ht
  rw [h.goesOn, microTrace_succ_of_last h.running ends (h.last t ends)]

/-- A step that answers no state lists none, however many micro-steps are made. -/
theorem Trampoline.trace_nil {s u : State} {j : Nat} (h : Trampoline s j u) (stuck : ∀ t, step s ≠ .next t) (m : Nat) :
    microTrace m s = [] := by
  obtain le | le := Nat.le_total m j
  · exact h.silent m le
  · obtain ⟨n, rfl⟩ := Nat.exists_eq_add_of_le' le
    rw [h.goesOn, microTrace_of_no_next fun t => h.answer ▸ stuck t]

/-- As many micro-steps as it takes list what `n` steps list. -/
theorem exists_microTrace_eq (n : Nat) {s : State} (zero : s.k = 0) : ∃ m, microTrace m s = stepTrace n s := by
  induction n generalizing s with
  | zero => exact ⟨0, rfl⟩
  | succ n ih =>
    by_cases running : s.status = .running
    · obtain ⟨j, u, tramp⟩ := exists_trampoline running zero
      by_cases answers : ∃ t, step s = .next t
      · obtain ⟨t, ht⟩ := answers
        obtain ⟨m, hm⟩ := ih (step_keeps_counter zero ht)
        exact ⟨m + 1 + j, by rw [tramp.trace_next ht, stepTrace_succ running ht, hm]⟩
      · exact ⟨0, (stepTrace_of_no_next (not_exists.mp answers) _).symm⟩
    · exact ⟨0, (stepTrace_stopped running _).symm⟩

/-- `m` micro-steps list what some number of steps lists: those whose chains have ended by then. -/
theorem exists_stepTrace_eq (m : Nat) {s : State} (zero : s.k = 0) : ∃ n, microTrace m s = stepTrace n s := by
  induction m using Nat.strong_induction_on generalizing s with
  | _ m ih =>
    by_cases running : s.status = .running
    · obtain ⟨j, u, tramp⟩ := exists_trampoline running zero
      obtain lt | le := Nat.lt_or_ge j m
      · by_cases answers : ∃ t, step s = .next t
        · obtain ⟨t, ht⟩ := answers
          obtain ⟨rest, rfl⟩ : ∃ rest, m = rest + 1 + j := ⟨m - 1 - j, by omega⟩
          obtain ⟨n, hn⟩ := ih rest (by omega) (step_keeps_counter zero ht)
          exact ⟨n + 1, by rw [tramp.trace_next ht, stepTrace_succ running ht, hn]⟩
        · exact ⟨0, tramp.trace_nil (not_exists.mp answers) m⟩
      · exact ⟨0, tramp.silent m le⟩
    · exact ⟨0, microTrace_stopped running m⟩

/-- Settles O13: the two traces by induction on their lengths, and the micro-steps inside a chain by
`microStep_midChain`. -/
theorem trampolineAndStepAreTheSameMachine : Obligations.TrampolineAndStepAreTheSameMachine := by
  refine ⟨fun _ n zero => exists_microTrace_eq n zero, fun _ m zero => exists_stepTrace_eq m zero,
    fun s t h inside => ?_⟩
  obtain ⟨a, -, -, moved⟩ := microStep_midChain h inside
  exact ⟨a, moved⟩

end Sys2Proof.Machine
end

section
/-! The host's input source: what a step uses of it, and the steps that do not see it (10_state.md R29, R43). -/

namespace Sys2Proof.Machine

/-! ### What is consumed -/

/-- From `s` to `t` the chain bound and the host's last answer are kept, and at most the first queued value is used. -/
def ConsumesAtMostOne (s t : State) : Prop :=
  t.chainBound = s.chainBound ∧ t.inputEnd = s.inputEnd ∧ (t.inputs = s.inputs ∨ ∃ r, s.inputs = r :: t.inputs)

theorem consumesAtMostOne_of_sameHost {s t : State} (h : sameHost s t) : ConsumesAtMostOne s t := by
  obtain ⟨inputs, inputEnd, chainBound⟩ := h
  exact ⟨chainBound, inputEnd, .inl inputs⟩

/-- Only the load of the input port consumes, in two of its ways of ending. -/
theorem exec_consumesAtMostOne {i : Instr} {s t : State} (h : exec i s = .next t) : ConsumesAtMostOne s t := by
  have kept {u : State} (host : sameHost s u) := consumesAtMostOne_of_sameHost host
  cases exec_next h with
  | input hr => exact ⟨rfl, rfl, .inr ⟨_, hr⟩⟩
  | invalid hr => exact ⟨rfl, rfl, .inr ⟨_, hr⟩⟩
  | halted => exact kept ⟨rfl, rfl, rfl⟩
  | jumped => exact kept ⟨rfl, rfl, rfl⟩
  | exceeded => exact kept ⟨rfl, rfl, rfl⟩
  | fellThrough => exact kept ⟨rfl, rfl, rfl⟩
  | loaded => exact kept ⟨rfl, rfl, rfl⟩
  | exhausted => exact kept ⟨rfl, rfl, rfl⟩
  | stored => exact kept ⟨rfl, rfl, rfl⟩
  | output => exact kept ⟨rfl, rfl, rfl⟩
  | added => exact kept ⟨rfl, rfl, rfl⟩
  | subtracted => exact kept ⟨rfl, rfl, rfl⟩

/-- Settles O39: the jumps of a step keep the host's side, and its last micro-step halts or executes. -/
theorem stepOnlyConsumesInput : Obligations.StepOnlyConsumesInput := by
  refine fun s t h => step_rel (P := ConsumesAtMostOne) (fun _ => consumesAtMostOne_of_sameHost ⟨rfl, rfl, rfl⟩) ?_ h
  intro s a j t _ hm _
  obtain rfl | ⟨-, he⟩ := microStep_cases hm
  · exact consumesAtMostOne_of_sameHost ⟨rfl, rfl, rfl⟩
  · exact exec_consumesAtMostOne (s := { s with pc := a, k := j }) he

/-! ### What a step sees of the source -/

/-- The state with another input source. -/
def State.withSource (inputs : List Text) (e : SourceEnd) (s : State) : State :=
  { s with inputs := inputs, inputEnd := e }

/-- A result with another input source in its next state. -/
def resultWithSource (inputs : List Text) (e : SourceEnd) : Result → Result
  | .next t => .next (t.withSource inputs e)
  | .fault r => .fault r
  | .refused r => .refused r

theorem takeJump_withSource (a : Addr) (s : State) (inputs : List Text) (e : SourceEnd) :
    takeJump a (s.withSource inputs e) = (takeJump a s).withSource inputs e := by
  obtain ⟨bound, taken⟩ | ⟨below, taken⟩ := takeJump_cases a s
  · rw [taken]
    exact if_pos bound
  · rw [taken]
    exact if_neg below

theorem jumpIf_withSource (taken : Bool) (a : Addr) (s : State) (inputs : List Text) (e : SourceEnd) :
    jumpIf taken a (s.withSource inputs e) = (jumpIf taken a s).withSource inputs e := by
  cases taken with
  | false => rfl
  | true => exact takeJump_withSource a s inputs e

/-- An instruction that is not the input port's load does the same under any input source. -/
theorem exec_withSource {i : Instr} (h : i ≠ .load Config.inputPort) (s : State) (inputs : List Text) (e : SourceEnd) :
    exec i (s.withSource inputs e) = resultWithSource inputs e (exec i s) := by
  cases i with
  | halt a => rfl
  | jump a => exact congrArg _ (takeJump_withSource a s inputs e)
  | jzer a => exact congrArg _ (jumpIf_withSource s.z a s inputs e)
  | jpos a => exact congrArg _ (jumpIf_withSource s.p a s inputs e)
  | load a =>
    have plain : a ≠ Config.inputPort := fun port => h (port ▸ rfl)
    rw [exec_load_plain plain, exec_load_plain plain]
    rfl
  | stor a =>
    by_cases port : a = Config.outputPort
    · rw [port, exec_stor_port, exec_stor_port]
      rfl
    · rw [exec_stor_plain port, exec_stor_plain port]
      rfl
  | add a =>
    rw [exec_add, exec_add]
    rfl
  | sub a =>
    rw [exec_sub, exec_sub]
    rfl

/-- The load of the input port prompts, however it ends (42_load_store.md R141). -/
theorem exec_load_port_prompts {s t : State} (h : exec (.load Config.inputPort) s = .next t) :
    ∃ more, t.transcript = s.transcript ++ Event.prompt :: more := by
  cases exec_next h with
  | input => exact ⟨_, rfl⟩
  | exhausted => exact ⟨[], rfl⟩
  | invalid => exact ⟨[], rfl⟩
  | loaded plain => exact absurd rfl plain
  | jumped other => exact absurd other (by simp)
  | exceeded other => exact absurd other (by simp)
  | fellThrough other => exact absurd other (by simp)

/-- No `Prompt` was appended from `s` to `t`. -/
def Unprompted (s t : State) : Prop := Event.prompt ∉ t.transcript.drop s.transcript.length

theorem not_unprompted {s t : State} {more : List Event} (h : t.transcript = s.transcript ++ Event.prompt :: more) :
    ¬ Unprompted s t := by
  rw [Unprompted, h, List.drop_left]
  simp

/-- A micro-step that appends no `Prompt` does the same under any input source. -/
theorem microStep_withSource {s t : State} (h : microStep s = .next t) (quiet : Unprompted s t) (inputs : List Text)
    (e : SourceEnd) : microStep (s.withSource inputs e) = .next (t.withSource inputs e) := by
  rw [microStep_eq] at h ⊢
  change (if Config.codeLimit ≤ s.pc.toNat then _ else exec (decode (s.cell s.pc.toNat)) (s.withSource inputs e)) = _
  split at h
  · next outside =>
    obtain rfl := Host.Outcome.next.inj h
    exact if_pos outside
  · next inside =>
    have other : decode (s.cell s.pc.toNat) ≠ .load Config.inputPort := by
      intro port
      obtain ⟨more, appended⟩ := exec_load_port_prompts (port ▸ h)
      exact not_unprompted appended quiet
    rw [if_neg inside, exec_withSource other, h]
    rfl

/-- A chain whose end appended no `Prompt` does the same under any input source: its jumps append nothing. -/
theorem chain_withSource {n : Nat} {s t : State} (h : chain n s = .next t) (quiet : Unprompted s t)
    (inputs : List Text) (e : SourceEnd) : chain n (s.withSource inputs e) = .next (t.withSource inputs e) := by
  induction n generalizing s with
  | zero => exact microStep_withSource h quiet inputs e
  | succ n ih =>
    rw [chain] at h ⊢
    cases first : microStep s with
    | fault r => simp [first] at h
    | refused r => simp [first] at h
    | next u =>
      rw [first] at h
      by_cases inside : u.k = 0
      · obtain rfl : u = t := by simpa [State.midChain, inside] using h
        rw [microStep_withSource first quiet]
        exact if_neg (by simp [State.midChain, State.withSource, inside])
      · obtain ⟨a, -, -, rfl⟩ := microStep_midChain first inside
        have silent : Unprompted s { s with pc := a, k := s.k + 1 } := by simp [Unprompted]
        rw [microStep_withSource first silent]
        exact ih (s := { s with pc := a, k := s.k + 1 }) h quiet

/-- Settles O40: a stopped machine does nothing, and a running one makes a chain. -/
theorem inputSourceIsSeenOnlyThroughPrompts : Obligations.InputSourceIsSeenOnlyThroughPrompts := by
  intro s t inputs e h quiet
  by_cases running : s.status = .running
  · rw [step, if_pos running] at h
    exact (if_pos running).trans (chain_withSource (s := { s with k := 0 }) h quiet inputs e)
  · obtain rfl := Host.Outcome.next.inj ((step_stopped running).symm.trans h)
    exact if_neg running

end Sys2Proof.Machine
end

section
/-! The errors a step can raise, the chain bound, and the length of a chain (60_exceptions.md R174, R177, R178,
41_control_transfer.md R130, R135). -/

namespace Sys2Proof.Machine

/-! ### Which errors an instruction raises -/

/-- An instruction of a running machine that ends faulted took a jump at the chain bound or met an input error. -/
theorem exec_faulted_cases {i : Instr} {s t : State} {kind : ErrorKind} {fpc : Addr} {fw : Option Byte}
    (running : s.status = .running) (h : exec i s = .next t) (faulted : t.status = .faulted kind fpc fw) :
    (kind = .jumpChainExceeded ∧ s.k = s.chainBound ∧ ∃ a, TakesJump s i a) ∨ kind = .inputExhausted ∨
      kind = .inputInvalid := by
  have stays {u : State} (same : u.status = s.status) (e : u.status = .faulted kind fpc fw) : False :=
    absurd (e.symm.trans (same.trans running)) (by simp)
  have raised {u : State} {raisedKind : ErrorKind} (e : (u.raise raisedKind).status = .faulted kind fpc fw) :
      kind = raisedKind := by
    obtain ⟨rfl, -, -⟩ := Status.faulted.inj e
    rfl
  cases exec_next h with
  | exceeded hi bound => exact .inl ⟨raised faulted, bound, _, hi⟩
  | exhausted => exact .inr (.inl (raised faulted))
  | invalid => exact .inr (.inr (raised faulted))
  | halted => exact absurd faulted (by simp)
  | jumped => exact (stays rfl faulted).elim
  | fellThrough => exact (stays rfl faulted).elim
  | loaded => exact (stays rfl faulted).elim
  | input => exact (stays rfl faulted).elim
  | stored => exact (stays rfl faulted).elim
  | output => exact (stays rfl faulted).elim
  | added => exact (stays rfl faulted).elim
  | subtracted => exact (stays rfl faulted).elim

/-- The same of a micro-step. -/
theorem microStep_faulted_cases {s t : State} {kind : ErrorKind} {fpc : Addr} {fw : Option Byte}
    (running : s.status = .running) (h : microStep s = .next t) (faulted : t.status = .faulted kind fpc fw) :
    (kind = .jumpChainExceeded ∧ s.k = s.chainBound ∧ ∃ a, s.jumpTarget = some a) ∨ kind = .inputExhausted ∨
      kind = .inputInvalid := by
  obtain rfl | ⟨code, he⟩ := microStep_cases h
  · exact absurd faulted (by simp)
  obtain ⟨kind, bound, a, taken⟩ | input := exec_faulted_cases running he faulted
  · exact .inl ⟨kind, bound, a, jumpTarget_eq_some.mpr ⟨Nat.not_le.mpr code, taken⟩⟩
  · exact .inr input

/-! ### The errors no step raises (R177, R178) -/

theorem inRange_iff {n : Nat} : inRange n = true ↔ n < 32 := decide_eq_true_iff

theorem memRead_eq_none {s : State} {n : Nat} : s.memRead n = none ↔ 32 ≤ n := by
  simp [State.memRead, inRange_iff]

theorem memWrite_eq_none {s : State} {n : Nat} {v : Byte} : s.memWrite n v = none ↔ 32 ≤ n := by
  simp [State.memWrite, inRange_iff]

/-- Settles O42: the last micro-step of a step raises none of the two kinds. -/
theorem outOfRangeErrorsAreUnreachable : Obligations.OutOfRangeErrorsAreUnreachable := by
  refine ⟨fun s t fpc fw running h => ?_, fun s n v => ⟨memRead_eq_none, memWrite_eq_none⟩⟩
  obtain ⟨j, a, -, -, answer, -⟩ := step_cases running
  have kinds {kind : ErrorKind} (faulted : t.status = .faulted kind fpc fw) :=
    microStep_faulted_cases (s := { s with pc := a, k := j }) running (answer.symm.trans h) faulted
  refine ⟨fun faulted => ?_, fun faulted => ?_⟩
  · obtain ⟨kind, -⟩ | kind | kind := kinds faulted <;> cases kind
  · obtain ⟨kind, -⟩ | kind | kind := kinds faulted <;> cases kind

/-! ### Chains that end (R135) -/

/-- Two chains of jumps from one state stand in the same state where they stand at the same pc. -/
theorem followJumps_eq_of_pc_eq {i j : Nat} {s u v : State} (hu : followJumps i s = some u)
    (hv : followJumps j s = some v) (pc : u.pc = v.pc) : u = v := by
  rw [followJumps_eq hu, followJumps_eq hv, pc]

/-- Before its end, a chain stands at a jump that is taken. -/
theorem jumpTarget_of_followJumps {j n : Nat} {s t u : State} (h : followJumps n s = some t) (lt : j < n)
    (hu : followJumps j s = some u) : ∃ a, u.jumpTarget = some a := by
  obtain ⟨v, hv, -⟩ := followJumps_of_le h (Nat.succ_le_of_lt lt)
  obtain ⟨w, a, hw, target, -⟩ := followJumps_last hv
  obtain rfl := Option.some.inj (hu.symm.trans hw)
  exact ⟨a, target⟩

/-- A jump that is taken stands in the code region. -/
theorem pc_lt_of_jumpTarget {s : State} {a : Addr} (h : s.jumpTarget = some a) : s.pc.toNat < 30 :=
  Nat.not_le.mp (jumpTarget_eq_some.mp h).1

/-- A chain that ends does so after one number of jumps. -/
theorem followJumps_end_unique {m n : Nat} {s t u : State} (ht : followJumps m s = some t) (endT : t.jumpTarget = none)
    (hu : followJumps n s = some u) (endU : u.jumpTarget = none) : m = n := by
  have notBefore {i j : Nat} {v w : State} (hv : followJumps i s = some v) (endV : v.jumpTarget = none)
      (hw : followJumps j s = some w) : ¬ i < j := by
    intro lt
    obtain ⟨a, target⟩ := jumpTarget_of_followJumps hw lt hv
    exact absurd (endV.symm.trans target) (by simp)
  exact Nat.le_antisymm (Nat.not_lt.mp (notBefore hu endU ht)) (Nat.not_lt.mp (notBefore ht endT hu))

/-- A chain that ends never stands at one address twice: from there it would have two lengths. -/
theorem followJumps_pc_ne {i j n : Nat} {s t u v : State} (h : followJumps n s = some t) (ends : t.jumpTarget = none)
    (lt : i < j) (inside : j < n) (hu : followJumps i s = some u) (hv : followJumps j s = some v) : u.pc ≠ v.pc := by
  intro pc
  obtain rfl := followJumps_eq_of_pc_eq hu hv pc
  obtain ⟨u', hu', long⟩ := followJumps_of_le h (Nat.le_of_lt (Nat.lt_trans lt inside))
  obtain ⟨v', hv', short⟩ := followJumps_of_le h (Nat.le_of_lt inside)
  obtain rfl := Option.some.inj (hu.symm.trans hu')
  obtain rfl := Option.some.inj (hv.symm.trans hv')
  have := followJumps_end_unique long ends short ends
  omega

/-- The address at which a chain stands after `j` jumps; 0 where it has ended before. -/
def chainPc (s : State) (j : Nat) : Nat := ((followJumps j s).map fun u => u.pc.toNat).getD 0

theorem chainPc_eq {j : Nat} {s u : State} (h : followJumps j s = some u) : chainPc s j = u.pc.toNat := by
  rw [chainPc, h]
  rfl

/-- A chain that ends takes at most 30 jumps: they stand at different addresses below 30. -/
theorem followJumps_length_le {n : Nat} {s t : State} (h : followJumps n s = some t) (ends : t.jumpTarget = none) :
    n ≤ 30 := by
  have stands {j : Nat} (lt : j < n) : ∃ u, followJumps j s = some u ∧ chainPc s j = u.pc.toNat := by
    obtain ⟨u, hu, -⟩ := followJumps_of_le h (Nat.le_of_lt lt)
    exact ⟨u, hu, chainPc_eq hu⟩
  have ne {i j : Nat} (lt : i < j) (inside : j < n) : chainPc s i ≠ chainPc s j := by
    obtain ⟨u, hu, pcU⟩ := stands (Nat.lt_trans lt inside)
    obtain ⟨v, hv, pcV⟩ := stands inside
    rw [pcU, pcV]
    exact fun same => followJumps_pc_ne h ends lt inside hu hv (BitVec.eq_of_toNat_eq same)
  have maps : Set.MapsTo (chainPc s) (Finset.range n) (Finset.range 30) := by
    intro j hj
    have lt : j < n := by simpa using hj
    obtain ⟨u, hu, pc⟩ := stands lt
    obtain ⟨a, target⟩ := jumpTarget_of_followJumps h lt hu
    simpa [pc] using pc_lt_of_jumpTarget target
  have injective : Set.InjOn (chainPc s) (Finset.range n) := by
    intro i hi j hj same
    have hi : i < n := by simpa using hi
    have hj : j < n := by simpa using hj
    obtain lt | eq | gt := Nat.lt_trichotomy i j
    · exact absurd same (ne lt hj)
    · exact eq
    · exact absurd same.symm (ne gt hi)
  simpa using Finset.card_le_card_of_injOn (chainPc s) maps injective

/-- Settles O44: the pcs of a chain that ends are different and below 30. -/
theorem finiteChainsAreAtMost30Jumps : Obligations.FiniteChainsAreAtMost30Jumps := by
  refine fun s t n h => ⟨followJumps_eq h, fun j u lt hu => ?_, fun ends => ⟨followJumps_length_le h ends, ?_⟩⟩
  · obtain ⟨a, target⟩ := jumpTarget_of_followJumps h lt hu
    exact pc_lt_of_jumpTarget target
  · exact fun i j u v lt inside hu hv => followJumps_pc_ne h ends lt inside hu hv

/-- A chain of more than 30 jumps never ends. -/
theorem followJumps_endless {n : Nat} {s t : State} (h : followJumps n s = some t) (long : 30 < n) (m : Nat) :
    (followJumps m s).isSome = true := by
  induction m with
  | zero => rfl
  | succ m ih =>
    obtain ⟨u, hu⟩ := Option.isSome_iff_exists.mp ih
    cases target : u.jumpTarget with
    | none =>
      have short := followJumps_length_le hu target
      obtain ⟨a, jump⟩ := jumpTarget_of_followJumps h (by omega) hu
      exact absurd (target.symm.trans jump) (by simp)
    | some a =>
      rw [followJumps_add, hu]
      simp [followJumps, target]

/-! ### The chain bound (R130, R174) -/

/-- The chain of `s` is at its bound with one more jump to take, at `u`. -/
def PassesBound (s u : State) : Prop := followJumps s.chainBound s = some u ∧ ∃ a, u.jumpTarget = some a

/-- A step whose chain passes the bound raises at the jump too many. -/
theorem step_of_passesBound {s u : State} (running : s.status = .running) (h : PassesBound s u) :
    step s = .next ({ u with k := s.chainBound }.raise .jumpChainExceeded) := by
  obtain ⟨jumps, a, target⟩ := h
  have bound : u.chainBound = s.chainBound := by rw [followJumps_eq jumps]
  have reset : followJumps s.chainBound { s with k := 0 } = some { u with k := 0 } := by
    rw [followJumps_counter, jumps]
    rfl
  have target' : ({ u with k := s.chainBound } : State).jumpTarget = some a := target
  calc step s
      = chain (0 + s.chainBound) { s with k := 0 } := by rw [step, if_pos running, Nat.zero_add]
    _ = chain 0 { u with k := 0 + s.chainBound } := chain_add_of_followJumps reset (Nat.le_of_eq (Nat.zero_add _)) 0
    _ = microStep { u with k := s.chainBound } := by rw [Nat.zero_add, chain]
    _ = .next (takeJump a { u with k := s.chainBound }) := microStep_of_target target'
    _ = _ := by rw [takeJump, if_pos bound.symm]

/-- A step raises `JumpChainExceeded` exactly when its chain passes the bound, with the record of the jump too many. -/
theorem step_exceeds_iff {s : State} {fpc : Addr} {fw : Option Byte} (running : s.status = .running) :
    (∃ t, step s = .next t ∧ t.status = .faulted .jumpChainExceeded fpc fw) ↔
      ∃ u, PassesBound s u ∧ fpc = u.pc ∧ fw = some (s.cell u.pc.toNat) := by
  constructor
  · rintro ⟨t, h, faulted⟩
    obtain ⟨j, a, -, jumps, answer, -⟩ := step_cases running
    have arrived : ({ s with pc := a, k := j } : State).status = .running := running
    have last := answer.symm.trans h
    obtain ⟨-, pc, word⟩ := microStep_raises arrived last faulted
    obtain ⟨-, bound, target⟩ | kind | kind := microStep_faulted_cases arrived last faulted
    · obtain rfl : j = s.chainBound := bound
      exact ⟨{ s with pc := a }, ⟨followJumps_of_counter_reset jumps, target⟩, pc, word⟩
    · cases kind
    · cases kind
  · rintro ⟨u, passes, rfl, rfl⟩
    have cells : u.mem = s.mem := by rw [followJumps_eq passes.1]
    exact ⟨_, step_of_passesBound running passes, by simp [cells]⟩

/-- With a bound of at least 30, a chain passes the bound exactly when it never ends. -/
theorem exists_passesBound_iff {s : State} (bound : 30 ≤ s.chainBound) :
    (∃ u, PassesBound s u) ↔ ∀ n, (followJumps n s).isSome = true := by
  constructor
  · rintro ⟨u, jumps, a, target⟩ n
    have further : followJumps (s.chainBound + 1) s = some { u with pc := a } := by
      rw [followJumps_add, jumps]
      simp [followJumps, target]
    exact followJumps_endless further (by omega) n
  · intro endless
    obtain ⟨v, hv⟩ := Option.isSome_iff_exists.mp (endless (s.chainBound + 1))
    obtain ⟨u, a, hu, target, -⟩ := followJumps_last hv
    exact ⟨u, hu, a, target⟩

/-- Settles O43: `step_exceeds_iff`, and from a bound of 30 on `exists_passesBound_iff`. -/
theorem chainExceededExactlyWhenTheBoundIsPassed : Obligations.ChainExceededExactlyWhenTheBoundIsPassed := by
  refine ⟨fun s fpc fw running => ?_, fun s running bound => ?_, rfl⟩
  · rw [step_exceeds_iff running]
    constructor
    · rintro ⟨u, ⟨jumps, a, target⟩, pc, word⟩
      exact ⟨u, a, jumps, target, pc, word⟩
    · rintro ⟨u, a, jumps, target, pc, word⟩
      exact ⟨u, ⟨jumps, a, target⟩, pc, word⟩
  · rw [← exists_passesBound_iff bound]
    constructor
    · rintro ⟨t, fpc, fw, h⟩
      obtain ⟨u, passes, -⟩ := (step_exceeds_iff running).mp ⟨t, h⟩
      exact ⟨u, passes⟩
    · rintro ⟨u, passes⟩
      obtain ⟨t, h⟩ := (step_exceeds_iff running).mpr ⟨u, passes, rfl, rfl⟩
      exact ⟨t, _, _, h⟩

end Sys2Proof.Machine
end

section
/-! `Run()` is the repeated step (10_state.md R45, R47). -/

namespace Sys2Proof.Machine

/-- A run's end, continued with more fuel where it is unfinished. -/
def RunEnd.goOn (fuel : Nat) : RunEnd → RunEnd
  | .unfinished t => run fuel t
  | .ended t => .ended t
  | .blocked t => .blocked t

/-- More fuel goes on from where the run stopped. -/
theorem run_add (m n : Nat) (s : State) : run (m + n) s = (run m s).goOn n := by
  induction m generalizing s with
  | zero =>
    rw [Nat.zero_add, run]
    split
    · rfl
    · next stopped => exact run_stopped stopped n
  | succ m ih =>
    by_cases running : s.status = .running
    · rw [Nat.add_right_comm]
      cases h : step s with
      | next t => rw [run_succ running h, run_succ running h, ih]
      | fault r =>
        obtain ⟨long, -⟩ := run_waiting running h (m + n)
        obtain ⟨short, -⟩ := run_waiting running h m
        rw [long, short]
        rfl
      | refused r => exact absurd h (step_not_refused s r)
    · rw [run_stopped running, run_stopped running]
      rfl

/-- How a run of `n` steps from `s` comes out, against the same steps made one by one. -/
inductive RunOutcome (n : Nat) (s : State) : Prop where
  | ended {t : State} (result : run n s = .ended t) (steps : Host.Core.run Sys2Proof.core n s = .next t)
      (status : t.status ≠ .running)
  | unfinished {t : State} (result : run n s = .unfinished t) (steps : Host.Core.run Sys2Proof.core n s = .next t)
      (status : t.status = .running)
  | blocked {t : State} {m : Nat} (result : run n s = .blocked t) (before : m < n)
      (steps : Host.Core.run Sys2Proof.core m s = .next t) (status : t.status = .running)
      (waits : step t = .fault .waitingForInput)
      (stuck : Host.Core.run Sys2Proof.core n s = .fault .waitingForInput)

/-- Every run comes out in one of the three ways, by induction on the fuel. -/
theorem runOutcome (n : Nat) (s : State) : RunOutcome n s := by
  induction n generalizing s with
  | zero =>
    by_cases running : s.status = .running
    · exact .unfinished (if_pos running) rfl running
    · exact .ended (if_neg running) rfl running
  | succ n ih =>
    by_cases running : s.status = .running
    · cases h : step s with
      | next t =>
        cases ih t with
        | ended result steps status =>
          exact .ended ((run_succ running h n).trans result) ((coreRun_succ h n).trans steps) status
        | unfinished result steps status =>
          exact .unfinished ((run_succ running h n).trans result) ((coreRun_succ h n).trans steps) status
        | blocked result before steps status waits stuck =>
          exact .blocked ((run_succ running h n).trans result) (Nat.succ_lt_succ before)
            ((coreRun_succ h _).trans steps) status waits ((coreRun_succ h n).trans stuck)
      | fault r =>
        cases r with
        | waitingForInput =>
          obtain ⟨result, stuck⟩ := run_waiting running h n
          exact .blocked result n.succ_pos rfl running h stuck
      | refused r => exact absurd h (step_not_refused s r)
    · exact .ended (run_stopped running _) (coreRun_stopped running _) running

/-- The state that `n` steps lead to is where a run with that fuel is, ended if it is stopped. -/
theorem run_of_coreRun_stopped {n : Nat} {s t : State} (h : Host.Core.run Sys2Proof.core n s = .next t)
    (stopped : t.status ≠ .running) : run n s = .ended t := by
  cases runOutcome n s with
  | ended result steps status =>
    obtain rfl := Host.Outcome.next.inj (h.symm.trans steps)
    exact result
  | unfinished result steps status =>
    obtain rfl := Host.Outcome.next.inj (h.symm.trans steps)
    exact absurd status stopped
  | blocked _ _ _ _ _ stuck => exact absurd (h.symm.trans stuck) (by simp)

/-- The same, unfinished if that state is running. -/
theorem run_of_coreRun_running {n : Nat} {s t : State} (h : Host.Core.run Sys2Proof.core n s = .next t)
    (running : t.status = .running) : run n s = .unfinished t := by
  cases runOutcome n s with
  | ended result steps status =>
    obtain rfl := Host.Outcome.next.inj (h.symm.trans steps)
    exact absurd running status
  | unfinished result steps status =>
    obtain rfl := Host.Outcome.next.inj (h.symm.trans steps)
    exact result
  | blocked _ _ _ _ _ stuck => exact absurd (h.symm.trans stuck) (by simp)

/-- A run that has fuel left in a state that waits is blocked there. -/
theorem run_of_coreRun_waiting {m n : Nat} {s t : State} (before : m < n)
    (h : Host.Core.run Sys2Proof.core m s = .next t) (running : t.status = .running)
    (waits : step t = .fault .waitingForInput) : run n s = .blocked t := by
  obtain ⟨d, rfl⟩ := Nat.exists_eq_add_of_lt before
  obtain ⟨blocked, -⟩ := run_waiting running waits d
  rw [Nat.add_assoc, run_add, run_of_coreRun_running h running]
  exact blocked

/-- Settles O45: `runOutcome` reads each end of a run as steps, the three lemmas after it read steps as an end, and
`run_add` composes runs. -/
theorem runIsRepeatedStep : Obligations.RunIsRepeatedStep := by
  refine ⟨fun n s t => ⟨fun h => ?_, fun ⟨steps, stopped⟩ => run_of_coreRun_stopped steps stopped⟩,
    fun n s t => ⟨fun h => ?_, fun ⟨steps, running⟩ => run_of_coreRun_running steps running⟩,
    fun n s t => ⟨fun h => ?_, fun ⟨m, before, steps, running, waits⟩ =>
      run_of_coreRun_waiting before steps running waits⟩, fun m n s => (run_add m n s).trans ?_⟩
  · cases runOutcome n s with
    | ended result steps status =>
      obtain rfl := RunEnd.ended.inj (result.symm.trans h)
      exact ⟨steps, status⟩
    | unfinished result => exact absurd (result.symm.trans h) (by simp)
    | blocked result => exact absurd (result.symm.trans h) (by simp)
  · cases runOutcome n s with
    | ended result => exact absurd (result.symm.trans h) (by simp)
    | unfinished result steps status =>
      obtain rfl := RunEnd.unfinished.inj (result.symm.trans h)
      exact ⟨steps, status⟩
    | blocked result => exact absurd (result.symm.trans h) (by simp)
  · cases runOutcome n s with
    | ended result => exact absurd (result.symm.trans h) (by simp)
    | unfinished result => exact absurd (result.symm.trans h) (by simp)
    | blocked result before steps status waits stuck =>
      obtain rfl := RunEnd.blocked.inj (result.symm.trans h)
      exact ⟨_, before, steps, status, waits⟩
  · cases run m s <;> rfl

end Sys2Proof.Machine
end

section
/-! Decimal text, written and read: the one text of an integer, and the texts `ParseInput` reads (10_state.md R44,
42_load_store.md R141). -/

namespace Sys2Proof.Machine

/-! ### The one decimal text of an integer -/

/-- The digits of a number without leading zeros are determined. -/
theorem eq_decimalDigits {digits : List Nat} (ne : digits ≠ []) (small : ∀ d ∈ digits, d < 10)
    (head : digits.head? = some 0 → digits = [0]) : digits = decimalDigits (Nat.ofDigits 10 digits.reverse) := by
  obtain ⟨d, rest, rfl⟩ := List.exists_cons_of_ne_nil ne
  by_cases zero : d = 0
  · rw [head (by simp [zero])]
    rfl
  · have back : Nat.digits 10 (Nat.ofDigits 10 (d :: rest).reverse) = (d :: rest).reverse :=
      Nat.digits_ofDigits 10 (by decide) _ (fun e he => small e (List.mem_reverse.mp he)) fun _ => by simpa using zero
    have nonzero : Nat.ofDigits 10 (d :: rest).reverse ≠ 0 := by
      rw [← Nat.digits_ne_nil_iff_ne_zero (b := 10), back]
      simp
    rw [decimalDigits, if_neg nonzero, back, List.reverse_reverse]

/-- The decimal text of an integer is the one that `plainDecimal` describes. -/
theorem eq_integerText {t : Text} {v : Int} (h : plainDecimal t v) : t = integerText v := by
  obtain ⟨digits, ne, small, head, rfl, magnitude⟩ := h
  rw [integerText, naturalText_eq_map_decimalDigits, magnitude, ← eq_decimalDigits ne small head]
  split <;> rfl

theorem spellsInteger_of_plainDecimal {t : Text} {v : Int} (h : plainDecimal t v) : spellsInteger t v := by
  obtain ⟨digits, ne, small, -, rfl, magnitude⟩ := h
  refine ⟨decide (v < 0), digits, ne, small, by simp only [decide_eq_true_eq], ?_⟩
  rw [← magnitude]
  by_cases negative : v < 0
  · rw [if_pos (decide_eq_true negative)]
    omega
  · rw [if_neg (by simpa using negative)]
    omega

theorem parseInteger_integerText (v : Int) : parseInteger (integerText v) = some v :=
  parseInteger_eq_some.mpr (spellsInteger_of_plainDecimal (plainDecimal_integerText v))

/-! ### What `ParseInput` reads -/

theorem isWhite_of_ascii_white {c : Char} (h : c.toNat = 32 ∨ 9 ≤ c.toNat ∧ c.toNat ≤ 13) : isWhite c = true :=
  if_pos h

theorem isWhite_of_printable {c : Char} (low : 33 ≤ c.toNat) (high : c.toNat ≤ 126) : isWhite c = false := by
  rw [isWhite, if_neg (by omega), if_pos ⟨low, high⟩]

theorem isWhite_digitChar {d : Nat} (h : d < 10) : isWhite (Nat.digitChar d) = false := by
  have printable : ∀ d, d < 10 → 33 ≤ (Nat.digitChar d).toNat ∧ (Nat.digitChar d).toNat ≤ 126 := by decide
  obtain ⟨low, high⟩ := printable d h
  exact isWhite_of_printable low high

/-- A decimal integer is a token. -/
theorem isToken_of_spellsInteger {t : Text} {v : Int} (h : spellsInteger t v) : isToken t := by
  obtain ⟨negative, digits, ne, small, rfl, -⟩ := h
  refine ⟨by simp [ne], fun c hc => ?_⟩
  obtain sign | digit := List.mem_append.mp hc
  · cases negative with
    | false => exact absurd sign List.not_mem_nil
    | true =>
      rw [List.mem_singleton.mp sign]
      rfl
  · obtain ⟨d, hd, rfl⟩ := List.mem_map.mp digit
    exact isWhite_digitChar (small d hd)

/-- A text that is white space, a decimal integer and white space. -/
def SpelledWithin (r : Text) (v : Int) : Prop :=
  ∃ before digits after, r = before ++ digits ++ after ∧ (∀ c ∈ before, isWhite c = true) ∧
    (∀ c ∈ after, isWhite c = true) ∧ spellsInteger digits v

theorem parseInteger_trim_eq_some {r : Text} {v : Int} : parseInteger (trim r) = some v ↔ SpelledWithin r v := by
  rw [parseInteger_eq_some]
  constructor
  · intro spelled
    obtain ⟨before, after, text, white, white'⟩ := trim_split r
    exact ⟨before, trim r, after, text, white, white', spelled⟩
  · rintro ⟨before, digits, after, rfl, white, white', spelled⟩
    rwa [trim_token white white' (isToken_of_spellsInteger spelled)]

theorem cellOf_s8 (b : Byte) : cellOf (s8 b) = b := by
  rw [s8_eq_toInt, cellOf, BitVec.ofInt_toInt]

/-- The byte with a wrapped value as its signed reading. -/
theorem cellOf_trunc8_eq_iff {v : Int} {b : Byte} : cellOf (trunc8 v) = b ↔ s8 b = trunc8 v := by
  constructor
  · rintro rfl
    rw [cellOf_trunc8, s8_cellOf]
  · intro h
    rw [← h, cellOf_s8]

theorem parseInput_eq_some {r : Text} {b : Byte} :
    parseInput r = some b ↔ ∃ v, SpelledWithin r v ∧ s8 b = trunc8 v := by
  simp only [parseInput, Option.map_eq_some_iff, parseInteger_trim_eq_some, cellOf_trunc8_eq_iff]

theorem parseInput_eq_none {r : Text} : parseInput r = none ↔ ¬ ∃ v, SpelledWithin r v := by
  rw [parseInput, Option.map_eq_none_iff, Option.eq_none_iff_forall_ne_some, not_exists]
  exact forall_congr' fun _ => not_congr parseInteger_trim_eq_some

/-- Settles O51: `parseInput_eq_some`, `parseInput_eq_none`, the characters of white space, and five evaluations. -/
theorem parseInputReadsExactlyTheDecimalTexts : Obligations.ParseInputReadsExactlyTheDecimalTexts := by
  refine ⟨fun r b => parseInput_eq_some.trans ⟨?_, ?_⟩, fun r => parseInput_eq_none.trans (not_congr ⟨?_, ?_⟩),
    fun _ white => isWhite_of_ascii_white white, fun _ low high => isWhite_of_printable low high,
    by decide, by decide, by decide, by decide, by decide⟩
  · rintro ⟨v, ⟨before, digits, after, text, white, white', spelled⟩, value⟩
    exact ⟨before, digits, after, v, text, white, white', spelled, value⟩
  · rintro ⟨before, digits, after, v, text, white, white', spelled, value⟩
    exact ⟨v, ⟨before, digits, after, text, white, white', spelled⟩, value⟩
  · rintro ⟨v, before, digits, after, text, white, white', spelled⟩
    exact ⟨before, digits, after, v, text, white, white', spelled⟩
  · rintro ⟨before, digits, after, v, text, white, white', spelled⟩
    exact ⟨v, before, digits, after, text, white, white', spelled⟩

/-- The text of an integer is its own spelling, with no white space around it. -/
theorem spelledWithin_integerText (v : Int) : SpelledWithin (integerText v) v :=
  ⟨[], integerText v, [], by simp, by simp, by simp, spellsInteger_of_plainDecimal (plainDecimal_integerText v)⟩

/-- Settles O46: the one text by `eq_integerText`; read as input, it gives the byte back, which is in range. -/
theorem outputTextReadsBack : Obligations.OutputTextReadsBack := by
  refine ⟨fun v t => ⟨?_, eq_integerText⟩, parseInteger_integerText, fun b => ?_⟩
  · rintro rfl
    exact plainDecimal_integerText v
  · obtain ⟨low, high⟩ := s8_bounds b
    exact parseInput_eq_some.mpr ⟨s8 b, spelledWithin_integerText _, (trunc8_of_bounds low high).symm⟩

end Sys2Proof.Machine
end

section
/-! The assembler: the names it knows, what a code part encodes to, and its answer (30_encoding.md R90 to R98). -/

namespace Sys2Proof.Machine

/-! ### Letter case (R91, R94) -/

theorem isUpper_iff {c : Char} : c.isUpper = true ↔ 65 ≤ c.toNat ∧ c.toNat ≤ 90 := by
  rw [Char.isUpper, decide_eq_true_eq]
  exact and_congr UInt32.le_iff_toNat_le UInt32.le_iff_toNat_le

/-- Folding the case is making the ASCII capital letters small. -/
theorem foldCase_eq_smallLetters (t : Text) : foldCase t = smallLetters t := by
  refine List.map_congr_left fun c _ => ?_
  by_cases upper : c.isUpper = true
  · rw [Char.toLower_eq_of_isUpper upper, if_pos (isUpper_iff.mp upper)]
  · rw [Char.toLower_eq_of_not_isUpper upper, if_neg (mt isUpper_iff.mpr upper)]

/-- A token spelled like a name up to letter case folds like it. -/
theorem foldCase_eq_of_spelled {tok : Text} {name : String} (folded : foldCase name.toList = name.toList)
    (spelled : smallLetters tok = name.toList) : foldCase tok = foldCase name.toList := by
  rw [foldCase_eq_smallLetters, spelled, folded]

/-! ### Sentinels (R96) -/

/-- The tokens are compared with the names after folding alone. -/
theorem sentinelWord_congr {t u : Text} (h : foldCase t = foldCase u) : sentinelWord t = sentinelWord u := by
  simp only [sentinelWord, h]

theorem sentinelTable_words : ∀ entry ∈ sentinelTable, foldCase entry.1.toList = entry.1.toList ∧
    (sentinelWord entry.1.toList).map s8 = some entry.2 := by decide

/-- A token that is a sentinel up to letter case has the sentinel's word. -/
theorem sentinelWord_of_mem {name : String} {word : Int} {tok : Text} (h : (name, word) ∈ sentinelTable)
    (spelled : smallLetters tok = name.toList) : ∃ w, sentinelWord tok = some w ∧ s8 w = word := by
  obtain ⟨folded, words⟩ := sentinelTable_words _ h
  rw [sentinelWord_congr (foldCase_eq_of_spelled folded spelled)]
  exact Option.map_eq_some_iff.mp words

/-- No other token is a sentinel. -/
theorem sentinelWord_eq_none {tok : Text}
    (h : ∀ name word, (name, word) ∈ sentinelTable → smallLetters tok ≠ name.toList) : sentinelWord tok = none := by
  have halt := h "halt" 0 (by decide)
  have read := h "read" (-98) (by decide)
  have write := h "write" (-65) (by decide)
  simp only [sentinelWord, foldCase_eq_smallLetters]
  rw [if_neg halt, if_neg read, if_neg write]

/-- Settles O48: each sentinel by its name, and the fields of its word by evaluation. -/
theorem sentinelsAreTheHaltAndPortWords : Obligations.SentinelsAreTheHaltAndPortWords := by
  refine ⟨foldCase_eq_smallLetters, fun tok => ⟨fun spelled => ?_, fun spelled => ?_, fun spelled => ?_,
    fun halt read write => sentinelWord_eq_none fun name word h => ?_⟩⟩
  · exact ⟨0x00#8, sentinelWord_congr (foldCase_eq_of_spelled rfl spelled), by decide, by decide, by decide⟩
  · exact ⟨0x9E#8, sentinelWord_congr (foldCase_eq_of_spelled rfl spelled), by decide, by decide, by decide⟩
  · exact ⟨0xBF#8, sentinelWord_congr (foldCase_eq_of_spelled rfl spelled), by decide, by decide, by decide⟩
  · simp only [sentinelTable, List.mem_cons, Prod.mk.injEq, List.not_mem_nil, or_false] at h
    obtain ⟨rfl, -⟩ | ⟨rfl, -⟩ | ⟨rfl, -⟩ := h
    · exact halt
    · exact read
    · exact write

/-! ### Mnemonics (R94) -/

theorem mnemonicOpcode_congr {t u : Text} (h : foldCase t = foldCase u) : mnemonicOpcode t = mnemonicOpcode u := by
  simp only [mnemonicOpcode, h]

theorem mnemonicTable_opcodes : ∀ entry ∈ mnemonicTable, foldCase entry.1.toList = entry.1.toList ∧
    mnemonicOpcode entry.1.toList = some entry.2 ∧ entry.2 < 8 := by decide

/-- A token that is a mnemonic up to letter case has the mnemonic's opcode. -/
theorem mnemonicOpcode_of_mem {name : String} {opcode : Nat} {tok : Text} (h : (name, opcode) ∈ mnemonicTable)
    (spelled : smallLetters tok = name.toList) : mnemonicOpcode tok = some opcode := by
  obtain ⟨folded, listed, -⟩ := mnemonicTable_opcodes _ h
  rw [mnemonicOpcode_congr (foldCase_eq_of_spelled folded spelled)]
  exact listed

/-- No other token is a mnemonic. -/
theorem mnemonicOpcode_eq_none {tok : Text}
    (h : ∀ name opcode, (name, opcode) ∈ mnemonicTable → smallLetters tok ≠ name.toList) :
    mnemonicOpcode tok = none := by
  have store : ¬ (smallLetters tok = "stor".toList ∨ smallLetters tok = "store".toList) :=
    not_or.mpr ⟨h "stor" 5 (by decide), h "store" 5 (by decide)⟩
  simp only [mnemonicOpcode, foldCase_eq_smallLetters]
  rw [if_neg (h "jump" 1 (by decide)), if_neg (h "jzer" 2 (by decide)), if_neg (h "jpos" 3 (by decide)),
    if_neg (h "load" 4 (by decide)), if_neg store, if_neg (h "add" 6 (by decide)), if_neg (h "sub" 7 (by decide))]

/-! ### One equation for each way a code part encodes (R90, R91, R94) -/

theorem encodeCode_of_sentinel {table : LabelTable} {code tok : Text} {w : Byte} (h : tokensOf code = [tok])
    (sentinel : sentinelWord tok = some w) : encodeCode table code = .ok w := by
  simp only [encodeCode, h, sentinel]

theorem encodeCode_of_value {table : LabelTable} {code tok : Text} {v : Int} (h : tokensOf code = [tok])
    (sentinel : sentinelWord tok = none) (value : resolve table tok = some v) :
    encodeCode table code = .ok (cellOf (trunc8 v)) := by
  simp only [encodeCode, h, sentinel, value]

theorem encodeCode_of_no_value {table : LabelTable} {code tok : Text} (h : tokensOf code = [tok])
    (sentinel : sentinelWord tok = none) (value : resolve table tok = none) :
    encodeCode table code = .error .unrecognizedToken := by
  simp only [encodeCode, h, sentinel, value]

theorem encodeCode_of_unknown {table : LabelTable} {code tok operand : Text} (h : tokensOf code = [tok, operand])
    (unknown : mnemonicOpcode tok = none) : encodeCode table code = .error .unknownMnemonic := by
  simp only [encodeCode, h, unknown]

theorem encodeCode_of_operand {table : LabelTable} {code tok operand : Text} {opcode : Nat} {v : Int}
    (h : tokensOf code = [tok, operand]) (known : mnemonicOpcode tok = some opcode)
    (value : resolve table operand = some v) : encodeCode table code = .ok (packWord opcode v) := by
  simp only [encodeCode, h, known, value]

theorem encodeCode_of_no_operand {table : LabelTable} {code tok operand : Text} {opcode : Nat}
    (h : tokensOf code = [tok, operand]) (known : mnemonicOpcode tok = some opcode)
    (value : resolve table operand = none) : encodeCode table code = .error .unrecognizedToken := by
  simp only [encodeCode, h, known, value]

theorem encodeCode_of_token_count {table : LabelTable} {code : Text} (notOne : (tokensOf code).length ≠ 1)
    (notTwo : (tokensOf code).length ≠ 2) : encodeCode table code = .error .wrongTokenCount := by
  unfold encodeCode
  split
  · next h => exact absurd (congrArg List.length h) notOne
  · next h => exact absurd (congrArg List.length h) notTwo
  · rfl

/-! ### Code parts -/

/-- Tokens with gaps between them are split into those tokens. -/
theorem tokensOf_join {front : List (Text × Text)} {last : Text}
    (h : ∀ piece ∈ front, isToken piece.1 ∧ isGap piece.2) (hl : isToken last) :
    tokensOf ((front.map fun piece => piece.1 ++ piece.2).flatten ++ last) = front.map Prod.fst ++ [last] := by
  induction front with
  | nil => exact tokensOf_token hl
  | cons piece front ih =>
    obtain ⟨token, gap⟩ := h piece (by simp)
    rw [List.map_cons, List.flatten_cons, List.append_assoc, tokensOf_token_gap token gap,
      ih fun other ho => h other (by simp [ho])]
    rfl

/-- Settles O54: the tokens by `tokensOf_join`, and one equation of `encodeCode` for each clause. -/
theorem codePartsEncodeByTheirTokens : Obligations.CodePartsEncodeByTheirTokens := by
  refine ⟨fun front last pieces token => tokensOf_join pieces token,
    fun table code notOne notTwo => encodeCode_of_token_count notOne notTwo, fun table tok token => ?_⟩
  have alone := tokensOf_token token
  refine ⟨fun name word listed spelled => ?_, fun unlisted => ⟨fun v value => ?_, fun value => ?_⟩⟩
  · obtain ⟨w, sentinel, reading⟩ := sentinelWord_of_mem listed spelled
    exact ⟨w, encodeCode_of_sentinel alone sentinel, reading⟩
  · exact ⟨_, encodeCode_of_value alone (sentinelWord_eq_none unlisted) value, cellOf_trunc8_eq_iff.mp rfl⟩
  · exact encodeCode_of_no_value alone (sentinelWord_eq_none unlisted) value

theorem tokensOf_two {mnemonic gap operand : Text} (hm : isToken mnemonic) (hg : isGap gap) (ho : isToken operand) :
    tokensOf (mnemonic ++ gap ++ operand) = [mnemonic, operand] := by
  rw [tokensOf_token_gap hm hg, tokensOf_token ho]

/-- Settles O55: the mnemonic's opcode by the table, the packed word by its signed reading and O47; the examples are
evaluated. -/
theorem mnemonicLinesEncodeByTheTable : Obligations.MnemonicLinesEncodeByTheTable := by
  refine ⟨fun table mnemonic gap operand hm hg ho => ?_, fun table => ⟨rfl, rfl, rfl, rfl⟩⟩
  have tokens := tokensOf_two hm hg ho
  refine ⟨fun name opcode listed spelled => ⟨fun v value => ?_, fun value => ?_⟩, fun unlisted => ?_⟩
  · obtain ⟨-, -, small⟩ := mnemonicTable_opcodes _ listed
    exact ⟨_, encodeCode_of_operand tokens (mnemonicOpcode_of_mem listed spelled) value, cellOf_trunc8_eq_iff.mp rfl,
      packedOperandsInRangeKeepTheOpcode opcode v small⟩
  · exact encodeCode_of_no_operand tokens (mnemonicOpcode_of_mem listed spelled) value
  · exact encodeCode_of_unknown tokens (mnemonicOpcode_eq_none unlisted)

/-! ### The assembler's answer (R97, R98) -/

/-- A program too long for the memory has an error (R97). -/
theorem length_le_of_overlongError {lines : List RealLine} (h : overlongError lines = []) : lines.length ≤ 32 := by
  unfold overlongError at h
  split at h
  · next short => exact List.drop_eq_nil_iff.mp short
  · cases h

/-- A source with nothing to report has at most 32 real lines. -/
theorem lines_le_of_no_errors {source : Text} (h : assemblyErrors source = []) :
    (firstPass source).lines.length ≤ 32 := by
  rw [assemblyErrors, List.append_eq_nil_iff, List.append_eq_nil_iff] at h
  obtain ⟨⟨sorted, -⟩, -⟩ := h
  refine length_le_of_overlongError (List.eq_nil_iff_forall_not_mem.mpr fun e he => ?_)
  have member : e ∈ sortByLine ((firstPass source).errors ++ overlongError (firstPass source).lines) :=
    mem_sortByLine.mpr (List.mem_append_right _ he)
  rw [sorted] at member
  exact absurd member List.not_mem_nil

theorem length_padImage {words : List Byte} (h : words.length ≤ 32) : (padImage words).length = 32 := by
  rw [padImage, List.length_append, List.length_replicate]
  exact Nat.add_sub_cancel' h

/-- Settles O49: without errors the words fit in the image, which is padded to 32 words. -/
theorem assemblyIsAnImageOrAReport : Obligations.AssemblyIsAnImageOrAReport := by
  intro source
  by_cases clean : assemblyErrors source = []
  · have fits := (secondPass_length (firstPass source).labels _).trans (lines_le_of_no_errors clean)
    have length := length_padImage fits
    exact .inl ⟨_, (assemble_result source).trans (if_pos clean), length,
      fun inputs e b => ⟨_, boot_of_length length inputs e b⟩⟩
  · exact .inr ⟨_, (assemble_result source).trans (if_neg clean), clean⟩

end Sys2Proof.Machine
end
